-- ==== Sys2Proof/Word.lean ====
section
/-! DEFINITION. The words of the ports, the bytes of the encode buffer and the levels of the data line
(00_scope.md R10, R12; 10_state.md R40). -/

namespace Sys2Proof

/-- One item of the request or the response port: 32 bits, bit 0 least significant (00_scope.md R10, R12). -/
abbrev Word := BitVec 32

/-- One byte of the encode buffer, and one gamma entry (00_scope.md R12). -/
abbrev Byte := BitVec 8

/-- The level of the channel's data line (10_state.md R40). -/
inductive Level where
  | low
  | high
  deriving DecidableEq, Repr

/-- A bus bit of 1 drives the line `High`, a bus bit of 0 drives it `Low` (20_memory.md R50). -/
def Level.ofBit : Bool → Level
  | true => .high
  | false => .low

end Sys2Proof
end

