-- ==== Sys2Proof/Config.lean ====
section
/-! DEFINITION. The configuration record `cfg` (00_scope.md R7, R8; 10_state.md R20 to R32), the free value of
the channel's outcome (42_channel_wire.md R110), and the reference configurations (92_eei_decisions.md D24). -/

namespace Sys2Proof

/-- A non-negative rational as plain data: its value is `num / (denPred + 1)`, so no denominator is zero.
DESIGN CHOICE (log 18), safe: the form of the OPEN parameters of 10_state.md R31, R32. -/
structure Ratio where
  num : Nat
  denPred : Nat
  deriving DecidableEq, Repr

/-- The configuration registers, one field each, at the width 10_state.md gives it. All are read-only (R20). -/
structure Config where
  /-- `STRIP_LEN`, N: pixels per frame (R21). -/
  stripLen : BitVec 16
  /-- `GROUP_BITS`, B: bus bits per protocol bit (R22). -/
  groupBits : BitVec 7
  /-- `PAT0`: bus pattern of protocol bit 0, in bits B-1..0 (R23). -/
  pat0 : BitVec 64
  /-- `PAT1`: bus pattern of protocol bit 1, in bits B-1..0 (R24). -/
  pat1 : BitVec 64
  /-- `RESET_BYTES`, R: zero bytes of padding per frame (R25). -/
  resetBytes : BitVec 32
  /-- `GAMMA_EN`: one bit (R26). -/
  gammaEn : Bool
  /-- `GAMMA[0..255]` (R27). -/
  gamma : Vector Byte 256
  /-- `F_BUS`: bus clock rate in Hz (R28). -/
  fBus : BitVec 32
  /-- `TOL_BIT_NS`, OPEN, in ns (R31). -/
  tolBitNs : Ratio
  /-- `TOL_DUTY`, OPEN (R32). -/
  tolDuty : Ratio
  /-- `TARGET_FPS`, OPEN and informative only (70_reset_and_hazards.md R149). -/
  targetFps : Ratio
  deriving DecidableEq, Repr

namespace Config

/-- N as a number (00_scope.md R7). -/
def N (cfg : Config) : Nat := cfg.stripLen.toNat

/-- B as a number (00_scope.md R7). -/
def B (cfg : Config) : Nat := cfg.groupBits.toNat

/-- R as a number (00_scope.md R7). -/
def R (cfg : Config) : Nat := cfg.resetBytes.toNat

/-- `LB = 3*B*N + R`, the encoded buffer length in bytes (00_scope.md R8). -/
def LB (cfg : Config) : Nat := 3 * cfg.B * cfg.N + cfg.R

/-- The expansion table: `EXP[0] = PAT0`, `EXP[1] = PAT1` (00_scope.md R8, 10_state.md R44). -/
def exp (cfg : Config) : Bool → BitVec 64
  | false => cfg.pat0
  | true => cfg.pat1

/-- `GAMMA[u]` (10_state.md R27): the index of a byte is always inside the table. -/
def gammaAt (cfg : Config) (u : Byte) : Byte := cfg.gamma[u.toNat]'u.isLt

/-- `T_BIT_NS`, a constant (10_state.md R29). -/
def tBitNs : Nat := 1250

/-- `T_RESET_MIN_NS`, a constant (10_state.md R30). -/
def tResetMinNs : Nat := 50000

/-- FREE VALUE (log 5): the channel's n-th free draw, `none` for `Ok` and `some k` for `Fail(k)` before `k` is
brought into range. It has no body, so nothing about its value can be proved (42_channel_wire.md R110: "The
draw is free"). -/
opaque freeOutcome : Nat → Option Nat

/-- The gamma table whose entry `u` is `f u`. -/
def tableOf (f : Nat → Nat) : Vector Byte 256 :=
  ⟨((List.range 256).map fun u => BitVec.ofNat 8 (f u)).toArray, by simp⟩

/-- `REF8` of 92_eei_decisions.md D24 for a strip of `n` pixels: for examples only. Its gamma table is off; its
contents and the OPEN parameters are the model's choice (DESIGN CHOICE, log 2). -/
def ref8 (n : Nat) : Config where
  stripLen := BitVec.ofNat 16 n
  groupBits := 8
  pat0 := 0xE0
  pat1 := 0xF8
  resetBytes := 40
  gammaEn := false
  gamma := tableOf id
  fBus := 6400000
  tolBitNs := ⟨0, 0⟩
  tolDuty := ⟨1, 23⟩
  targetFps := ⟨0, 0⟩

/-- `REF3` of 92_eei_decisions.md D24 for a strip of `n` pixels: for examples only. -/
def ref3 (n : Nat) : Config :=
  { ref8 n with groupBits := 3, pat0 := 0b100, pat1 := 0b110, resetBytes := 15, fBus := 2400000 }

/-- `REF8G` of 92_eei_decisions.md D24: `REF8` with gamma on and `GAMMA[u] = floor(u*u/255)`. -/
def ref8g (n : Nat) : Config :=
  { ref8 n with gammaEn := true, gamma := tableOf fun u => u * u / 255 }

/-- DESIGN CHOICE (log 2), unsafe: the instantiation that `State.reset` holds, `REF8` with the source's example
strip length 90. The spec leaves every parameter OPEN (00_scope.md R7). -/
def atReset : Config := ref8 90

end Config

end Sys2Proof
end

