-- ==== Sys2Proof/Machine/ConfigCheck.lean ====
section
/-! DEFINITION. Structural well-formedness of a configuration: checks WF1 to WF12 of 10_state.md R33, and the
lengths `H0`, `H1` of the patterns' high runs (00_scope.md R8). -/

namespace Sys2Proof.Config

/-- The length of the leading run of 1 bits of `p`, read as a `b`-bit pattern from bit `b-1` down
(00_scope.md R8). -/
def leadRun (p : BitVec 64) : Nat → Nat
  | 0 => 0
  | b + 1 => if p.getLsbD b then leadRun p b + 1 else 0

/-- `H0` and `H1`: the leading run of the pattern of protocol bit `t` (00_scope.md R8). -/
def high (cfg : Config) (t : Bool) : Nat := leadRun (cfg.exp t) cfg.B

/-- A pattern of one high run then one low run: `p = (2^H - 1) * 2^(B-H)` for some `1 <= H <= B-1`
(10_state.md R33, WF4 and WF5). -/
def oneRun (b : Nat) (p : BitVec 64) : Bool :=
  (List.range b).any fun h => decide (1 ≤ h) && p.toNat == (2 ^ h - 1) * 2 ^ (b - h)

/-- WF1: `1 <= N <= 65535`. -/
def wf1 (cfg : Config) : Bool := decide (1 ≤ cfg.N ∧ cfg.N ≤ 65535)
/-- WF2: `3 <= B <= 64`. -/
def wf2 (cfg : Config) : Bool := decide (3 ≤ cfg.B ∧ cfg.B ≤ 64)
/-- WF3: `PAT0 < 2^B` and `PAT1 < 2^B`. -/
def wf3 (cfg : Config) : Bool := decide (cfg.pat0.toNat < 2 ^ cfg.B ∧ cfg.pat1.toNat < 2 ^ cfg.B)
/-- WF4: `PAT0` is one high run then one low run. -/
def wf4 (cfg : Config) : Bool := oneRun cfg.B cfg.pat0
/-- WF5: `PAT1` is one high run then one low run. -/
def wf5 (cfg : Config) : Bool := oneRun cfg.B cfg.pat1
/-- WF6: `H0 < H1`. -/
def wf6 (cfg : Config) : Bool := decide (cfg.high false < cfg.high true)
/-- WF7: `R >= 1`. -/
def wf7 (cfg : Config) : Bool := decide (1 ≤ cfg.R)
/-- WF8: `GAMMA_EN` is 0 or 1. -/
def wf8 (cfg : Config) : Bool := cfg.gammaEn == false || cfg.gammaEn == true
/-- WF9: with gamma on, `GAMMA[i] <= GAMMA[i+1]` for every `i` in 0..254. -/
def wf9 (cfg : Config) : Bool :=
  !cfg.gammaEn ||
    (List.range 255).all fun i =>
      decide (cfg.gammaAt (BitVec.ofNat 8 i) ≤ cfg.gammaAt (BitVec.ofNat 8 (i + 1)))
/-- WF10: with gamma on, `GAMMA[0] = 0`. -/
def wf10 (cfg : Config) : Bool := !cfg.gammaEn || cfg.gammaAt 0 == 0
/-- WF11: `3*B*N + R <= 2^32 - 1`. -/
def wf11 (cfg : Config) : Bool := decide (cfg.LB ≤ 2 ^ 32 - 1)
/-- WF12: `F_BUS >= 1`. -/
def wf12 (cfg : Config) : Bool := decide (1 ≤ cfg.fBus.toNat)

/-- Every check of 10_state.md R33. -/
def wf (cfg : Config) : Bool :=
  cfg.wf1 && cfg.wf2 && cfg.wf3 && cfg.wf4 && cfg.wf5 && cfg.wf6 && cfg.wf7 && cfg.wf8 && cfg.wf9 &&
    cfg.wf10 && cfg.wf11 && cfg.wf12

end Sys2Proof.Config
end

