-- ==== Sys2Proof/Syntax.lean ====
section
/-! DEFINITION. Pixels, frames and the two commands of spec/opcode_table.json (30_encoding.md R66, R69, R70). -/

namespace Sys2Proof

/-- A pixel in input order (R, G, B); each channel is the mathematical integer its payload word denotes
(00_scope.md R15; 30_encoding.md R70). -/
structure Pixel where
  r : Int
  g : Int
  b : Int
  deriving DecidableEq, Repr

/-- The frame a command carries, pixel 0 first. Its length is the header's `L`, which may differ from
`STRIP_LEN` (30_encoding.md R65). -/
abbrev Frame := List Pixel

/-- The commands of spec/opcode_table.json, one constructor a row. -/
inductive Instr where
  /-- `ENCODE <pixels>` (41_commands.md R100). -/
  | encode (px : Frame)
  /-- `TRANSMIT <pixels>` (41_commands.md R101). -/
  | transmit (px : Frame)
  deriving DecidableEq, Repr

/-- The frame of a command. -/
def Instr.frame : Instr → Frame
  | .encode px => px
  | .transmit px => px

/-- The all-off pixel `(0, 0, 0)`. -/
def Pixel.off : Pixel := ⟨0, 0, 0⟩

/-- The blank frame: `n` pixels, all `(0, 0, 0)` (00_scope.md R15). -/
def Frame.blank (n : Nat) : Frame := List.replicate n Pixel.off

/-- The pseudo-command `BLANK`: `TRANSMIT (0, 0, 0) * N` (30_encoding.md R78; 41_commands.md R102). -/
def Instr.blank (cfg : Config) : Instr := .transmit (Frame.blank cfg.N)

end Sys2Proof
end

