-- ==== Sys2Proof/Machine/State.lean ====
section
/-! DEFINITION. The state of the block (10_state.md sections 2 and 3), with the two other agents of
00_scope.md R6 as plain data beside it, and the state after reset (10_state.md R45). -/

namespace Sys2Proof.Machine

/-- What the Core is doing (10_state.md R36). -/
inductive Phase where
  /-- No command is in progress. -/
  | idle
  /-- A TRANSMIT has handed `buf` to the channel and waits for its report. -/
  | busy (buf : List Byte)
  deriving DecidableEq, Repr

/-- The outcome of a transfer (42_channel_wire.md R110). -/
inductive ChanOutcome where
  /-- Every byte was clocked. -/
  | ok
  /-- Exactly the first `k` bytes were clocked. -/
  | fail (k : Nat)
  deriving DecidableEq, Repr

/-- A channel event (10_state.md R39). -/
inductive ChanEvent where
  /-- A transfer of `buf` was handed to the channel. -/
  | start (buf : List Byte)
  /-- The channel reported. -/
  | done (o : ChanOutcome)
  deriving DecidableEq, Repr

/-- A move of the Host agent (41_commands.md R105, R106). -/
inductive HostMove where
  /-- Append a word to `reqQ`. -/
  | write (w : Word)
  /-- Remove the head of `respQ`. -/
  | take
  /-- Reset the block (70_reset_and_hazards.md R136). -/
  | reset
  /-- Open the channel at a clock rate in Hz (42_channel_wire.md R108). -/
  | openChannel (hz : Nat)
  /-- Close the channel at the end of the shutdown (70_reset_and_hazards.md R141, step 4). -/
  | closeChannel
  /-- Close the channel to open it again, after a failure (41_commands.md R107, HD5). -/
  | closeToReconnect
  /-- Let the Core or the Channel take one step (log 3). -/
  | wait
  deriving DecidableEq, Repr

/-- Whether the Host has the channel open, and at what rate (42_channel_wire.md R108; log 15). -/
inductive Link where
  /-- Not open: not opened since the boot, or closed for a reconnect. -/
  | closed
  /-- Open at a rate in Hz. -/
  | opened (hz : Nat)
  /-- Closed at the end of the shutdown of 70_reset_and_hazards.md R141. -/
  | shutDown
  deriving DecidableEq, Repr

/-- A transfer the Channel is clocking: the outcome drawn for it and the bus bits not yet clocked (log 6). -/
structure Transfer where
  outcome : ChanOutcome
  left : List Bool
  deriving DecidableEq, Repr

/-- The whole state. The first seven fields are the spec's (10_state.md R20, R35); the others are the model's own:
the Host, the Channel and what was observed of them (logs 3, 5, 6, 15, 16, 26). -/
structure State where
  /-- The configuration registers, read-only (R20). -/
  cfg : Config
  /-- R36. -/
  phase : Phase
  /-- R37, oldest word first. -/
  reqQ : List Word
  /-- R38, oldest word first. -/
  respQ : List Word
  /-- R39, oldest event first. -/
  chanLog : List ChanEvent
  /-- R40. -/
  line : Level
  /-- R41. -/
  refused : Bool
  /-- The Host's moves still to come, next first. -/
  host : List HostMove
  /-- The response words the Host has taken, oldest first. -/
  taken : List Word
  /-- The words of the last command the Host has begun: its header and the payload so far. None from a reset that loses a
  command unrun (DESIGN CHOICE, log 4) to the Host's next header. -/
  lastCmd : List Word
  /-- The Host began that command with nothing outstanding, and no reset has lost its response. -/
  lastAlone : Bool
  /-- A transfer failed before the last reset, since the channel was opened. -/
  hadFailure : Bool
  /-- Whether the Host has the channel open. -/
  link : Link
  /-- Outcomes the environment has already fixed for the next transfers. -/
  chan : List ChanOutcome
  /-- How many free draws have been made. -/
  draws : Nat
  /-- The transfer being clocked. -/
  xfer : Option Transfer
  /-- The bus bits clocked in this run, oldest first. -/
  wire : List Bool
  /-- The channel events of this run from before the channel was last closed, oldest first. -/
  past : List ChanEvent
  deriving DecidableEq, Repr

/-- The reasons the machine stops with a fault: none. "Fault: none. Every legal and illegal header has a meaning"
(60_exceptions.md R135). Nobody raises one; safe (log 10). -/
inductive Fault where
  deriving DecidableEq, Repr

/-- The reasons the model gives no step. -/
inductive Refusal where
  /-- An instruction without a meaning in this model: no arm of `exec` raises it. Safe. -/
  | notModelled (mnemonic : String)
  /-- Raised by `step`: the configuration fails 10_state.md R33, so the model "gives no step to any agent"
  (00_scope.md R9). Safe. -/
  | illFormedConfig
  /-- Raised by the Host moves `closeChannel` and `closeToReconnect` while `phase = Busy`, which duty HD3 forbids: "A model
  gives the Host no move that breaks any of these duties" (41_commands.md R107). Safe (log 4). -/
  | closeWhileBusy
  /-- Raised in `Idle` by the Host move `closeChannel` before steps 1 to 3 of 70_reset_and_hazards.md R141 are done, and by
  `closeToReconnect` with a command outstanding or without a failure (41_commands.md R107, HD3 to HD6). Safe, but for the
  reading of the duties in log 4. -/
  | closeOutOfOrder
  /-- Raised by the Host move `openChannel` where the channel is not to be opened, or not at that rate: "opened once at
  process start", at `F_BUS` (42_channel_wire.md R108; 70_reset_and_hazards.md R139; 41_commands.md R107, HD3). Safe
  (logs 4, 15). -/
  | openOutOfOrder
  /-- Raised by the Host move `write` of a TRANSMIT header while the channel is not open at `F_BUS` (41_commands.md R107,
  HD3; 70_reset_and_hazards.md R141: "After step 4 it issues no TRANSMIT"). Safe (log 4). -/
  | transmitOnClosedChannel
  deriving DecidableEq, Repr

/-- The state right after a reset of a block instantiated with `cfg` (10_state.md R45), with no Host move to
come and no transfer outcome fixed (log 20). The mark `refused` is set when `cfg` fails R33 (R41). -/
def State.resetWith (cfg : Config) : State where
  cfg := cfg
  phase := .idle
  reqQ := []
  respQ := []
  chanLog := []
  line := .low
  refused := !cfg.wf
  host := []
  taken := []
  lastCmd := []
  lastAlone := false
  hadFailure := false
  link := .closed
  chan := []
  draws := 0
  xfer := none
  wire := []
  past := []

/-- The state right after reset. Its configuration is the model's choice (DESIGN CHOICE, log 2). -/
def State.reset : State := State.resetWith Config.atReset

end Sys2Proof.Machine
end

