-- ==== Sys2Proof/Machine/Operands.lean ====
section
/-! DEFINITION. From operand to wire byte: the stages CLAMP, GAM, PREP and WIRE of 40_datapath.md (R80 to R83),
and the Host's saturation of wider values (41_commands.md R107, duty HD2). -/

namespace Sys2Proof.Machine

/-- `CLAMP(v)` (40_datapath.md R80): signed comparisons on the mathematical integer, no wrapping. -/
def clamp (v : Int) : Byte :=
  if v < 0 then 0 else if 255 < v then 255 else BitVec.ofInt 8 v

/-- `GAM(u)` (40_datapath.md R81). -/
def gam (cfg : Config) (u : Byte) : Byte := if cfg.gammaEn then cfg.gammaAt u else u

/-- `PREP(v) = GAM(CLAMP(v))`, the same for every channel (40_datapath.md R82). -/
def prep (cfg : Config) (v : Int) : Byte := gam cfg (clamp v)

/-- `WIRE(px)`: Green, Red, Blue (40_datapath.md R83). -/
def wireBytes (cfg : Config) (p : Pixel) : List Byte := [prep cfg p.g, prep cfg p.r, prep cfg p.b]

/-- Duty HD2: the Host converts a channel value by saturating to `-2^31..2^31-1` (41_commands.md R107). -/
def saturate (v : Int) : Int := max (-(2 ^ 31)) (min v (2 ^ 31 - 1))

/-- Duty HD2 on every channel of a pixel. -/
def saturatePixel (p : Pixel) : Pixel := ⟨saturate p.r, saturate p.g, saturate p.b⟩

end Sys2Proof.Machine
end

