-- ==== Sys2Proof/Machine/Datapath.lean ====
section
/-! DEFINITION. The datapath from bytes to the encode buffer: BITS, GROUP, XB, SERIAL, PACK, PAD and ENCODE_FN
of 40_datapath.md (R84 to R91), and the buffer's MemRead and MemWrite (20_memory.md R48). -/

namespace Sys2Proof.Machine

/-- `BITS(u)`: the eight bits of a byte, most significant first (40_datapath.md R84). -/
def bits (u : Byte) : List Bool :=
  [u.getLsbD 7, u.getLsbD 6, u.getLsbD 5, u.getLsbD 4, u.getLsbD 3, u.getLsbD 2, u.getLsbD 1, u.getLsbD 0]

/-- The low `b` bits of a pattern, from bit `b-1` down to bit 0. -/
def patternBits (p : BitVec 64) : Nat → List Bool
  | 0 => []
  | b + 1 => p.getLsbD b :: patternBits p b

/-- `GROUP(t)`: the B bus bits of protocol bit `t` (40_datapath.md R85). -/
def group (cfg : Config) (t : Bool) : List Bool := patternBits (cfg.exp t) cfg.B

/-- `XB(u)`: the bus bits of one channel byte (40_datapath.md R86). -/
def xb (cfg : Config) (u : Byte) : List Bool := (bits u).flatMap (group cfg)

/-- `SERIAL(frame)`: the bus bits of the frame (40_datapath.md R87). -/
def serial (cfg : Config) (px : Frame) : List Bool := (px.flatMap (wireBytes cfg)).flatMap (xb cfg)

/-- The byte whose bit 7 is the first bit. -/
def byteOfBits (b7 b6 b5 b4 b3 b2 b1 b0 : Bool) : Byte :=
  BitVec.ofBool b7 ++ BitVec.ofBool b6 ++ BitVec.ofBool b5 ++ BitVec.ofBool b4 ++
    BitVec.ofBool b3 ++ BitVec.ofBool b2 ++ BitVec.ofBool b1 ++ BitVec.ofBool b0

/-- `PACK(bits)`: eight bus bits to a byte, the first in bit 7 (40_datapath.md R89). -/
def pack : List Bool → List Byte
  | b7 :: b6 :: b5 :: b4 :: b3 :: b2 :: b1 :: b0 :: rest => byteOfBits b7 b6 b5 b4 b3 b2 b1 b0 :: pack rest
  | _ => []

/-- `PAD`: the reset padding, once per frame (40_datapath.md R90). -/
def pad (cfg : Config) : List Byte := List.replicate cfg.R 0

/-- `ENCODE_FN(frame)` (40_datapath.md R91), defined for every length as R93 allows. -/
def encodeFn (cfg : Config) (px : Frame) : List Byte := pack (serial cfg px) ++ pad cfg

/-- `MemRead(a, n)` of an encode buffer: bytes `a` to `a+n-1` (20_memory.md R48). -/
def memRead (buf : List Byte) (a n : Nat) : List Byte := (buf.drop a).take n

/-- `MemWrite(a, n, v)` of an encode buffer: bytes `a` to `a+n-1` become those of `v` (20_memory.md R48). -/
def memWrite (buf : List Byte) (a : Nat) (v : List Byte) : List Byte :=
  buf.take a ++ v ++ buf.drop (a + v.length)

end Sys2Proof.Machine
end

