-- ==== Sys2Proof/Machine/Flags.lean ====
section
/-! DEFINITION. The block has no flags (10_state.md R19): what other machines report in flags travels in a
response's status. Status codes (30_encoding.md R73; 60_exceptions.md R121), the response header (30_encoding.md
R72), and the status of a channel outcome (41_commands.md R101). -/

namespace Sys2Proof.Machine

/-- The status of a response (30_encoding.md R73). -/
inductive Status where
  | ok
  | shapeMismatch
  | channelWriteFailure
  | illegalCommand
  deriving DecidableEq, Repr

/-- The numeric code of a status (30_encoding.md R73). -/
def statusCode : Status → Byte
  | .ok => 0x00
  | .shapeMismatch => 0x01
  | .channelWriteFailure => 0x02
  | .illegalCommand => 0x03

/-- The response header of format `S`: `OPE`, sixteen zero bits, `STATUS` (30_encoding.md R72). -/
def respHeader (ope : Byte) (st : Status) : Word := ope ++ (0 : BitVec 16) ++ statusCode st

/-- The status that reports a channel outcome (41_commands.md R101; 60_exceptions.md R121). -/
def outcomeStatus : ChanOutcome → Status
  | .ok => .ok
  | .fail _ => .channelWriteFailure

end Sys2Proof.Machine
end

