-- ==== Sys2Proof/Machine/Ops.lean ====
section
/-! DEFINITION. The shared operations over the block's state: the port and channel primitives of 00_scope.md
R13, and `raise Status(code)`, which stands where another machine takes an exception (60_exceptions.md R120). -/

namespace Sys2Proof.Machine

/-- `ReqRead()`: the head word of `reqQ` is returned and removed; with an empty queue it holds (10_state.md R37). -/
def reqRead (s : State) : Option (Word × State) :=
  match s.reqQ with
  | [] => none
  | w :: ws => some (w, { s with reqQ := ws })

/-- `n` times `ReqRead()`, in order (41_commands.md R98). -/
def reqReads : Nat → State → Option (List Word × State)
  | 0, s => some ([], s)
  | n + 1, s =>
    match reqRead s with
    | none => none
    | some (w, s') => (reqReads n s').map fun r => (w :: r.1, r.2)

/-- The `ReqRead`s of one command at once: its words leave the queue, `rest` stays (10_state.md R37; that it is the same
as `reqReads` is `reqReads_eq_consume` of Laws/Ops.lean). -/
def consume (rest : List Word) (s : State) : State := { s with reqQ := rest }

/-- `RespWrite` of the words `ws`, in order (10_state.md R38). -/
def respWrite (ws : List Word) (s : State) : State := { s with respQ := s.respQ ++ ws }

/-- `raise Status(code)` (60_exceptions.md R120): the response header ends the command. No state is saved, no
mode changes and control does not move; there is no return (R126). -/
def raiseStatus (ope : Byte) (st : Status) (s : State) : State := respWrite [respHeader ope st] s

/-- Entering a phase (10_state.md R36). -/
def setPhase (p : Phase) (s : State) : State := { s with phase := p }

/-- Appending a channel event (10_state.md R39). -/
def logEvent (e : ChanEvent) (s : State) : State := { s with chanLog := s.chanLog ++ [e] }

/-- `ChanWrite(buf)`: start a transfer (42_channel_wire.md R109). -/
def chanWrite (buf : List Byte) (s : State) : State := logEvent (.start buf) s

/-- `ChanResult()`: the outcome of the last `Done` event, `none` while the log does not end in one
(42_channel_wire.md R111). -/
def chanResult (log : List ChanEvent) : Option ChanOutcome :=
  match log.getLast? with
  | some (.done o) => some o
  | some (.start _) => none
  | none => none

/-- The event reports a failed transfer (10_state.md R39). -/
def ChanEvent.isFailure : ChanEvent → Bool
  | .start _ => false
  | .done .ok => false
  | .done (.fail _) => true

/-- The data words of an ENCODE response: four buffer bytes to a word, the first in bits 7..0, and 0 past the
end (30_encoding.md R74). -/
def dataWords : List Byte → List Word
  | [] => []
  | [b0] => [(0 : Byte) ++ (0 : Byte) ++ (0 : Byte) ++ b0]
  | [b0, b1] => [(0 : Byte) ++ (0 : Byte) ++ b1 ++ b0]
  | [b0, b1, b2] => [(0 : Byte) ++ b2 ++ b1 ++ b0]
  | b0 :: b1 :: b2 :: b3 :: rest => (b3 ++ b2 ++ b1 ++ b0) :: dataWords rest

end Sys2Proof.Machine
end

