-- ==== Sys2Proof/Machine/Wire.lean ====
section
/-! DEFINITION. The waveform on the strip's data line (42_channel_wire.md section 2). -/

namespace Sys2Proof.Machine

/-- `WAVE(bytes)`: the bus bits in clocking order, bit 7 of each byte first (42_channel_wire.md R114). -/
def wave (bytes : List Byte) : List Bool := bytes.flatMap bits

/-- The bytes of `buf` that a transfer with this outcome clocks (42_channel_wire.md R110, R115). -/
def clocked : ChanOutcome → List Byte → List Byte
  | .ok, buf => buf
  | .fail k, buf => buf.take k

/-- The outcomes the channel may draw for `buf`: `Ok`, and `Fail(k)` with `0 <= k <= len(buf)`
(42_channel_wire.md R110). -/
def admits : ChanOutcome → List Byte → Bool
  | .ok, _ => true
  | .fail k, buf => decide (k ≤ buf.length)

/-- The bus bits that the reported transfers of a log put on the wire, in order (42_channel_wire.md R115). -/
def wireOf : List ChanEvent → List Bool
  | .start buf :: .done o :: rest => wave (clocked o buf) ++ wireOf rest
  | _ => []

/-- The length of the leading `High` run of a group of bus bits. -/
def highRun : List Bool → Nat
  | true :: ws => highRun ws + 1
  | _ => 0

/-- Reading `n` protocol bits back from a waveform, group by group: a leading high run of `H1` bus bits is a 1
(42_channel_wire.md R116). -/
def recoverBits (cfg : Config) : Nat → List Bool → List Bool
  | 0, _ => []
  | n + 1, ws => (highRun (ws.take cfg.B) == cfg.high true) :: recoverBits cfg n (ws.drop cfg.B)

end Sys2Proof.Machine
end

