-- ==== Sys2Proof/Machine/Channel.lean ====
section
/-! DEFINITION. The Channel agent (42_channel_wire.md R110): it takes up the transfer handed to it and draws the
outcome, clocks the bus bits of the clocked bytes one step each, then reports (log 6). -/

namespace Sys2Proof.Machine

/-- An outcome brought into the range R110 draws from for a buffer of `len` bytes: `k` is unchanged when it is at
most `len` (log 5). -/
def within (len : Nat) : ChanOutcome → ChanOutcome
  | .ok => .ok
  | .fail k => .fail (k % (len + 1))

/-- The outcome an option stands for. -/
def outcomeOf : Option Nat → ChanOutcome
  | none => .ok
  | some k => .fail k

/-- The outcome drawn for `buf`: the next one the environment has fixed, else the FREE VALUE of log 5
(42_channel_wire.md R110). -/
def drawn (buf : List Byte) (s : State) : ChanOutcome :=
  match s.chan with
  | o :: _ => within buf.length o
  | [] => within buf.length (outcomeOf (Config.freeOutcome s.draws))

/-- The state with that draw used up. -/
def afterDraw (s : State) : State :=
  match s.chan with
  | _ :: os => { s with chan := os }
  | [] => { s with draws := s.draws + 1 }

/-- The Channel takes up the transfer of `buf` with outcome `o`: the bus bits it will clock are those of R115. -/
def takeUp (buf : List Byte) (o : ChanOutcome) (s : State) : State :=
  { s with xfer := some ⟨o, wave (clocked o buf)⟩ }

/-- One bus bit is clocked: the line takes its level (42_channel_wire.md R114). -/
def clockBit (o : ChanOutcome) (b : Bool) (left : List Bool) (s : State) : State :=
  { s with line := Level.ofBit b, wire := s.wire ++ [b], xfer := some ⟨o, left⟩ }

/-- The Channel reports: `Done(o)` is logged and the line is `Low` again (42_channel_wire.md R110, R115). -/
def report (o : ChanOutcome) (s : State) : State :=
  logEvent (.done o) { s with line := .low, xfer := none }

/-- The Channel's next move on the transfer it is clocking. -/
def clockOrReport (x : Transfer) (s : State) : State :=
  match x.left with
  | [] => report x.outcome s
  | b :: left => clockBit x.outcome b left s

end Sys2Proof.Machine
end

