-- ==== Sys2Proof/WellFormed.lean ====
section
/-! DEFINITION. Which commands have an encoding: `L` fits the header's 16 bits (30_encoding.md R65) and every
channel value fits a payload word (30_encoding.md R70). -/

namespace Sys2Proof

/-- The integers a payload word denotes: `-2^31..2^31-1` (30_encoding.md R70). -/
def channelInRange (v : Int) : Bool := decide (-(2 ^ 31) ≤ v ∧ v ≤ 2 ^ 31 - 1)

/-- Every channel of the pixel has a payload word. -/
def Pixel.wf (p : Pixel) : Bool := channelInRange p.r && channelInRange p.g && channelInRange p.b

/-- A frame that some header and payload carry: at most 65535 pixels, each with payload words. -/
def Frame.wf (px : Frame) : Bool := decide (px.length ≤ 65535) && px.all Pixel.wf

/-- A command that has an encoding. -/
def Instr.wf (i : Instr) : Bool := Frame.wf i.frame

end Sys2Proof
end

