-- ==== Sys2Proof/Decode.lean ====
section
/-! DEFINITION. The request stream (30_encoding.md sections 1 and 3): header fields, legality, the decoder of
the word at the head of the stream, and the encoder written from the same formats. -/

namespace Sys2Proof

/-- `OP`, header bits 31..24 (30_encoding.md R65). -/
def headerOp (h : Word) : Byte := h.extractLsb' 24 8

/-- `RSV`, header bits 23..16 (30_encoding.md R65). -/
def headerRsv (h : Word) : Byte := h.extractLsb' 16 8

/-- `L`, header bits 15..0, unsigned (30_encoding.md R65). -/
def headerLen (h : Word) : Nat := (h.extractLsb' 0 16).toNat

/-- The opcode of `ENCODE` (30_encoding.md R66). -/
def opEncode : Byte := 0x01

/-- The opcode of `TRANSMIT` (30_encoding.md R66). -/
def opTransmit : Byte := 0x02

/-- Legality of a header word (30_encoding.md R68). -/
def legal (h : Word) : Bool :=
  (headerOp h == opEncode || headerOp h == opTransmit) && headerRsv h == 0

/-- The number of payload words after a header: `3*L` when it is legal, none when it is illegal
(30_encoding.md R71). -/
def payloadLen (h : Word) : Nat := if legal h then 3 * headerLen h else 0

/-- Whether the stream holds at least `n` words. -/
def hasWords : Nat → List Word → Bool
  | 0, _ => true
  | _ + 1, [] => false
  | n + 1, _ :: ws => hasWords n ws

/-- The first `L` pixels of a payload, in (R, G, B) order, each word read as two's complement
(30_encoding.md R69, R70). -/
def pixelsOf : Nat → List Word → Frame
  | L + 1, r :: g :: b :: ws => ⟨r.toInt, g.toInt, b.toInt⟩ :: pixelsOf L ws
  | _, _ => []

/-- What the decoder finds at the head of the request stream. -/
inductive Decoded where
  /-- No complete command is queued: the Core holds (30_encoding.md R71). -/
  | held
  /-- An illegal header `h`, a command of one word (30_encoding.md R68, R76). -/
  | illegal (h : Word) (rest : List Word)
  /-- A legal header with all its payload. -/
  | command (i : Instr) (rest : List Word)
  deriving DecidableEq, Repr

/-- How many payload words are still to come after the words `ws`, when `n` were to come before them: the position of
the next word in the framing of R64 and R71. It is 0 exactly where the next word is a header. -/
def owed : Nat → List Word → Nat
  | n, [] => n
  | 0, w :: ws => owed (payloadLen w) ws
  | n + 1, _ :: ws => owed n ws

/-- The header words of a stream whose first `n` words are payload (30_encoding.md R64, R71). -/
def headersOf : Nat → List Word → List Word
  | _, [] => []
  | 0, w :: ws => w :: headersOf (payloadLen w) ws
  | n + 1, _ :: ws => headersOf n ws

/-- A header word of TRANSMIT (30_encoding.md R66, R68). -/
def startsTransmit (h : Word) : Bool := legal h && headerOp h == opTransmit

/-- The command a legal opcode and a frame stand for (30_encoding.md R66). -/
def instrOf (op : Byte) (px : Frame) : Instr := if op == opEncode then .encode px else .transmit px

/-- The decoder, total on every word stream (30_encoding.md R64, R71). -/
def decode : List Word → Decoded
  | [] => .held
  | h :: ws =>
    if legal h then
      if hasWords (3 * headerLen h) ws then
        .command (instrOf (headerOp h) (pixelsOf (headerLen h) ws)) (ws.drop (3 * headerLen h))
      else .held
    else .illegal h ws

/-- A header word of format `H` with `RSV = 0` (30_encoding.md R65). -/
def header (op : Byte) (L : Nat) : Word := op ++ (0 : Byte) ++ BitVec.ofNat 16 L

/-- The three payload words of a pixel (30_encoding.md R69). -/
def pixelWords (p : Pixel) : List Word := [BitVec.ofInt 32 p.r, BitVec.ofInt 32 p.g, BitVec.ofInt 32 p.b]

/-- The opcode of a command (30_encoding.md R66). -/
def opcode : Instr → Byte
  | .encode _ => opEncode
  | .transmit _ => opTransmit

/-- The encoder: the request words of a well-formed command (30_encoding.md R65, R69). -/
def encode (i : Instr) : List Word := header (opcode i) i.frame.length :: i.frame.flatMap pixelWords

/-- `n` words cut from a number, the least significant first. -/
def wordsOfNat : Nat → Nat → List Word
  | 0, _ => []
  | n + 1, v => BitVec.ofNat 32 v :: wordsOfNat n (v >>> 32)

/-- The words of the instruction the opcode table numbers as `w`: bit 0 of `w` is bit 0 of the first word; all
bits from `nbits` on are 0, so the payload words that the table gives no bits are zero words. -/
def tableWords (nbits w : Nat) : List Word :=
  let v := w % 2 ^ nbits
  let h := BitVec.ofNat 32 v
  h :: wordsOfNat (payloadLen h) (v >>> 32)

/-- The instruction the decoder reads from the words the table numbers as `w`, `none` where it refuses. -/
def decodeTableWord (nbits w : Nat) : Option Instr :=
  match decode (tableWords nbits w) with
  | .command i _ => some i
  | .illegal _ _ => none
  | .held => none

end Sys2Proof
end

