-- ==== Sys2Proof/Machine/Encode.lean ====
section
/-! DEFINITION. The meaning of ENCODE (41_commands.md R99, R100). -/

namespace Sys2Proof.Machine

/-- `ENCODE`: after the shape check, the response is OK, `LB` and the buffer's data words; no I/O
(41_commands.md R100). The command's words are already consumed. -/
def execEncode (px : Frame) (s : State) : Host.Outcome State Fault Refusal :=
  if px.length ≠ s.cfg.N then .next (raiseStatus opEncode .shapeMismatch s)
  else
    let buf := encodeFn s.cfg px
    .next (respWrite (BitVec.ofNat 32 buf.length :: dataWords buf) (raiseStatus opEncode .ok s))

end Sys2Proof.Machine
end

