-- ==== Sys2Proof/Machine/Transmit.lean ====
section
/-! DEFINITION. The meaning of TRANSMIT (41_commands.md R99, R101): its issue step, and its completion step after
the channel's report. -/

namespace Sys2Proof.Machine

/-- `TRANSMIT`, Core step 1: after the shape check, the complete buffer is handed to the channel in one transfer
and the Core waits (41_commands.md R101). The command's words are already consumed. -/
def execTransmit (px : Frame) (s : State) : Host.Outcome State Fault Refusal :=
  if px.length ≠ s.cfg.N then .next (raiseStatus opTransmit .shapeMismatch s)
  else
    let buf := encodeFn s.cfg px
    .next (setPhase (.busy buf) (chanWrite buf s))

/-- `TransmitComplete`, Core step 2: back to `Idle`, the outcome reported in the response (41_commands.md R101). -/
def transmitComplete (o : ChanOutcome) (s : State) : State :=
  raiseStatus opTransmit (outcomeStatus o) (setPhase .idle s)

end Sys2Proof.Machine
end

