-- ==== Sys2Proof/Machine/Dispatch.lean ====
section
/-! DEFINITION. One arm per command of spec/opcode_table.json. -/

namespace Sys2Proof.Machine

def exec (i : Instr) (s : State) : Host.Outcome State Fault Refusal :=
  match i with
  | .encode px => Sys2Proof.Machine.execEncode px s
  | .transmit px => Sys2Proof.Machine.execTransmit px s

end Sys2Proof.Machine
end

