-- ==== Sys2Proof/Machine/Illegal.lean ====
section
/-! DEFINITION. The meaning of an illegal header word (41_commands.md R103). -/

namespace Sys2Proof.Machine

/-- `ILLEGAL(h)`: the response `ILLEGAL_COMMAND` with the opcode echoed, and nothing else (41_commands.md R103).
The header word is already consumed. -/
def illegalCommand (h : Word) (s : State) : State := raiseStatus (headerOp h) .illegalCommand s

end Sys2Proof.Machine
end

