-- ==== Sys2Proof/Machine/CoreCycle.lean ====
section
/-! DEFINITION. The command cycle of the Core in `Idle` (41_commands.md R98). -/

namespace Sys2Proof.Machine

/-- `CoreStep` (41_commands.md R98): a complete command's words are consumed and its rule is run. With no complete
command queued the Core holds, and the step leaves the state as it is (60_exceptions.md R135, "Held"; log 8). -/
def coreStep (s : State) : Host.Outcome State Fault Refusal :=
  match decode s.reqQ with
  | .held => .next s
  | .illegal h rest => .next (illegalCommand h (consume rest s))
  | .command i rest => exec i (consume rest s)

end Sys2Proof.Machine
end

