-- ==== Sys2Proof/Machine/Agents.lean ====
section
/-! DEFINITION. Which agent of 00_scope.md R6 moves, the Host's moves (41_commands.md R106), and the duties that keep a
move from being made: "A model gives the Host no move that breaks any of these duties" (41_commands.md R107). -/

namespace Sys2Proof.Machine

/-- The step of the Core or the Channel, whichever is enabled: `CoreStep` in `Idle` (41_commands.md R98); in
`Busy(buf)` the Channel while the log ends in `Start(buf)` (42_channel_wire.md R110) and `TransmitComplete` once it
ends in `Done(o)` (41_commands.md R101). With neither enabled the state stays (log 19). -/
def blockStep (s : State) : Host.Outcome State Fault Refusal :=
  match s.phase with
  | .idle => coreStep s
  | .busy buf =>
    match s.xfer with
    | some x => .next (clockOrReport x s)
    | none =>
      match chanResult s.chanLog with
      | some o => .next (transmitComplete o s)
      | none =>
        if s.chanLog.getLast? = some (.start buf) then .next (takeUp buf (drawn buf s) (afterDraw s))
        else .next s

/-- A reset begins a new boot (70_reset_and_hazards.md R139): a channel closed at a shutdown may be opened again, an open
one stays open. DESIGN CHOICE (log 15): the spec leaves open whether a closed channel is opened again. -/
def Link.afterReset : Link → Link
  | .closed => .closed
  | .opened hz => .opened hz
  | .shutDown => .closed

/-- Every command the Host has begun is run and answered. -/
def allRun (s : State) : Bool := decide (s.phase = .idle) && decide (s.reqQ = [])

/-- No command is outstanding: each is answered, and the Host has read every response (41_commands.md R107, HD6). -/
def settled (s : State) : Bool := allRun s && decide (s.respQ = [])

/-- A transfer has failed since the channel was opened, so the Host may decide to reconnect, whatever followed
(41_commands.md R107, HD5). -/
def failedSinceOpen (s : State) : Bool := s.hadFailure || s.chanLog.any ChanEvent.isFailure

/-- Reset of the block by the Host (70_reset_and_hazards.md R136, R138): every piece of run-time state takes its
reset value and the configuration stays. The Host quiesces the channel with it (duty HD7), so no transfer is being
clocked; the Host's moves to come and what it remembers, the channel's link and its outcomes to come are not the block's
(log 14). DESIGN CHOICE (log 4): when the reset loses a command unrun or cuts its transfer off, the spec leaves open
which command is then the Host's last (41_commands.md R107, HD4); here none is, not even one run before it, so that the
Host has BLANK to issue again. One whose response alone the reset loses stays the last, but the Host has not read its
response (70_reset_and_hazards.md R141, step 3). -/
def resetBlock (s : State) : State :=
  { State.resetWith s.cfg with
    host := s.host, link := s.link.afterReset, chan := s.chan, draws := s.draws
    lastCmd := if allRun s then s.lastCmd else []
    lastAlone := s.lastAlone && settled s
    hadFailure := failedSinceOpen s }

/-- The Host removes the head of `respQ` (41_commands.md R106); with an empty queue nothing is removed (log 21). -/
def takeResponse (s : State) : State :=
  { s with taken := s.taken ++ s.respQ.take 1, respQ := s.respQ.drop 1 }

/-- The next word the Host writes is a header (30_encoding.md R64, R71). -/
def atHeader (s : State) : Bool := decide (owed 0 s.reqQ = 0)

/-- The Host appends a word to `reqQ` (41_commands.md R106): the header of its next command, or payload of its last. -/
def writeRequest (w : Word) (s : State) : State :=
  { s with
    reqQ := s.reqQ ++ [w]
    lastCmd := if atHeader s then [w] else s.lastCmd ++ [w]
    lastAlone := if atHeader s then settled s else s.lastAlone }

/-- The Host opens the channel (42_channel_wire.md R108). -/
def openChannel (hz : Nat) (s : State) : State := { s with link := .opened hz, hadFailure := false }

/-- The channel is open at `F_BUS`, its clock rate (42_channel_wire.md R108). -/
def channelOpen (s : State) : Bool := decide (s.link = .opened s.cfg.fBus.toNat)

/-- The last command the Host has begun is BLANK (41_commands.md R107, HD4). -/
def lastIsBlank (s : State) : Bool := decide (s.lastCmd = encode (Instr.blank s.cfg))

/-- The Host closes the channel, and its link becomes `l`: "no block state survives it except the configuration"
(60_exceptions.md R134). What was observed of the run and what the Host remembers stay (log 26). -/
def closeChannel (l : Link) (s : State) : State :=
  { State.resetWith s.cfg with
    host := s.host, taken := s.taken, link := l, chan := s.chan, draws := s.draws, wire := s.wire
    past := s.past ++ s.chanLog, lastCmd := s.lastCmd, lastAlone := s.lastAlone }

/-- Duty HD3 and R141 for a written word: no TRANSMIT is begun while the channel is not open at `F_BUS`. -/
def mayWrite (w : Word) (s : State) : Bool := !(atHeader s && startsTransmit w) || channelOpen s

/-- R108, R139 and duty HD3: the channel is opened once, at `F_BUS`. Once more after a reconnect's close, or after a
shutdown and a reset: DESIGN CHOICE (log 15), since 91_not_in_source.md N20 leaves open whether a closed channel is
reopened. -/
def mayOpen (hz : Nat) (s : State) : Bool := decide (s.link = .closed) && decide (hz = s.cfg.fBus.toNat)

/-- Step 4 of 70_reset_and_hazards.md R141 comes after steps 1 to 3: with no command outstanding the Host issued BLANK, its
last command, and has read the response (duties HD4, HD6). -/
def mayShutDown (s : State) : Bool := channelOpen s && settled s && lastIsBlank s && s.lastAlone

/-- The Host reconnects after a failure (duty HD5), with no command outstanding. It sees only responses (41_commands.md
R106), so only then it knows that it does not close in `Busy` (duties HD3, HD6; log 4). -/
def mayReconnect (s : State) : Bool := channelOpen s && settled s && failedSinceOpen s

/-- A close: refused in `Busy` by duty HD3, else made if `ok`, and the link becomes `l`. -/
def closeMove (ok : Bool) (l : Link) (s : State) : Host.Outcome State Fault Refusal :=
  match s.phase with
  | .idle => if ok then .next (closeChannel l s) else .refused .closeOutOfOrder
  | .busy _ => .refused .closeWhileBusy

/-- One move of the Host (41_commands.md R105, R106). A move that breaks a duty of R107 is none of its moves and is
refused (log 4). -/
def hostMove (m : HostMove) (s : State) : Host.Outcome State Fault Refusal :=
  match m with
  | .write w => if mayWrite w s then .next (writeRequest w s) else .refused .transmitOnClosedChannel
  | .take => .next (takeResponse s)
  | .reset => .next (resetBlock s)
  | .openChannel hz => if mayOpen hz s then .next (openChannel hz s) else .refused .openOutOfOrder
  | .closeChannel => closeMove (mayShutDown s) .shutDown s
  | .closeToReconnect => closeMove (mayReconnect s) .closed s
  | .wait => blockStep s

/-- The Host moves while it has a move to come; its move `wait` lets the block or the Channel move; and with no move
to come they move (log 3). -/
def agentStep (s : State) : Host.Outcome State Fault Refusal :=
  match s.host with
  | [] => blockStep s
  | m :: ms => hostMove m { s with host := ms }

/-- A configuration failing 10_state.md R33, or one already marked, gives no step to any agent (00_scope.md R9;
10_state.md R41). -/
def guardedStep (s : State) : Host.Outcome State Fault Refusal :=
  if s.refused || !s.cfg.wf then .refused .illFormedConfig else agentStep s

end Sys2Proof.Machine
end

