-- ==== Sys2Proof/Machine/Step.lean ====
section
/-! DEFINITION. One step of the machine, and how a command is put where the next step takes it (log 13). -/

namespace Sys2Proof.Machine

/-- One step of one agent. -/
def step (s : State) : Host.Outcome State Fault Refusal := guardedStep s

/-- `s` with the words of the command the opcode table numbers as `w` at the head of `reqQ`, and made so that the
next step reads them: the Core is `Idle` with no transfer being clocked, and a Host with moves to come waits for one
step first. At `State.reset` only `reqQ` changes (log 13). -/
def State.withFetchWord (s : State) (nbits w : Nat) : State :=
  { s with
    reqQ := tableWords nbits w ++ s.reqQ
    phase := .idle
    line := match s.phase with
      | .idle => s.line
      | .busy _ => .low
    xfer := match s.phase with
      | .idle => s.xfer
      | .busy _ => none
    host := match s.host with
      | [] => []
      | m :: ms => .wait :: m :: ms }

end Sys2Proof.Machine
end

