-- ==== Sys2Proof/Machine/Assembler.lean ====
section
/-! DEFINITION. The lines of the command assembler (30_encoding.md R77, R78), after their text is read: the model
takes a line as a term, not as characters (log 22). -/

namespace Sys2Proof.Machine

/-- `(r, g, b) * k`; an item without `* k` has `k = 1` (30_encoding.md R77). -/
structure AsmItem where
  px : Pixel
  k : Nat
  deriving DecidableEq, Repr

/-- A line of an assembly program (30_encoding.md R77, R78). -/
inductive AsmLine where
  /-- `ENCODE <pixels>` -/
  | encode (items : List AsmItem)
  /-- `TRANSMIT <pixels>` -/
  | transmit (items : List AsmItem)
  /-- `BLANK` -/
  | blank
  /-- `.word <w>` -/
  | word (w : Word)
  deriving DecidableEq, Repr

/-- The frame an item list stands for. -/
def asmFrame (items : List AsmItem) : Frame := items.flatMap fun it => List.replicate it.k it.px

/-- The command of a line, `none` for `.word`. -/
def asmInstr (cfg : Config) : AsmLine → Option Instr
  | .encode items => some (.encode (asmFrame items))
  | .transmit items => some (.transmit (asmFrame items))
  | .blank => some (Instr.blank cfg)
  | .word _ => none

/-- Every repeat count is at least 1. -/
def asmCounts : AsmLine → Bool
  | .encode items => items.all fun it => decide (1 ≤ it.k)
  | .transmit items => items.all fun it => decide (1 ≤ it.k)
  | .blank => true
  | .word _ => true

/-- The words of a line; `none` where R77 allows no such line (a channel outside `-2^31..2^31-1`, `k = 0`, more than
65535 pixels). -/
def assembleLine (cfg : Config) (l : AsmLine) : Option (List Word) :=
  match l, asmInstr cfg l with
  | .word w, _ => some [w]
  | _, some i => if asmCounts l && i.wf then some (encode i) else none
  | _, none => none

/-- The words of a program, line after line (30_encoding.md R64, R77). -/
def assemble (cfg : Config) : List AsmLine → Option (List Word)
  | [] => some []
  | l :: ls =>
    match assembleLine cfg l, assemble cfg ls with
    | some ws, some rest => some (ws ++ rest)
    | _, _ => none

end Sys2Proof.Machine
end

