-- ==== Sys2Proof/Machine/Timing.lean ====
section
/-! DEFINITION. Durations as rational functions of the configuration: the timing checks TWF1 to TWF3 (10_state.md
R34), the level of the line over a transfer (42_channel_wire.md R114, R115), bit and padding times (R117, R118) and
transfer times (70_reset_and_hazards.md R148, R149). No step depends on any of them (log 17). -/

namespace Sys2Proof

/-- The rational a `Ratio` stands for. -/
def Ratio.toRat (r : Ratio) : ℚ := r.num / (r.denPred + 1)

namespace Config

/-- `F_BUS` in Hz. -/
def busRate (cfg : Config) : ℚ := cfg.fBus.toNat

/-- The duration of `n` bus bits, in seconds (42_channel_wire.md R113). -/
def busTime (cfg : Config) (n : Nat) : ℚ := n / cfg.busRate

/-- The actual bit period `B * 10^9 / F_BUS`, in ns (10_state.md R31). -/
def bitPeriodNs (cfg : Config) : ℚ := cfg.B * 10 ^ 9 / cfg.busRate

/-- The high-time fraction `H0/B` or `H1/B` (10_state.md R32). -/
def duty (cfg : Config) (t : Bool) : ℚ := cfg.high t / cfg.B

/-- TWF1 (10_state.md R34). -/
def twf1 (cfg : Config) : Prop := |cfg.bitPeriodNs - tBitNs| ≤ cfg.tolBitNs.toRat

/-- TWF2 (10_state.md R34). -/
def twf2 (cfg : Config) : Prop :=
  |cfg.duty false - 1 / 3| ≤ cfg.tolDuty.toRat ∧ |cfg.duty true - 2 / 3| ≤ cfg.tolDuty.toRat

/-- TWF3 (10_state.md R34). -/
def twf3 (cfg : Config) : Prop := 8 * cfg.R * 10 ^ 9 / cfg.busRate ≥ tResetMinNs

/-- Every timing check of 10_state.md R34. -/
def timingOk (cfg : Config) : Prop := cfg.twf1 ∧ cfg.twf2 ∧ cfg.twf3

/-- The time a successful transfer occupies the line, in seconds (70_reset_and_hazards.md R148). -/
def transferTime (cfg : Config) : ℚ := 8 * cfg.LB / cfg.busRate

/-- The bound on the frame rate, in frames per second (70_reset_and_hazards.md R148). -/
def frameRateBound (cfg : Config) : ℚ := cfg.busRate / (8 * cfg.LB)

/-- Whether the bound allows the informative target `TARGET_FPS` (70_reset_and_hazards.md R149). -/
def targetReachable (cfg : Config) : Prop := cfg.targetFps.toRat ≤ cfg.frameRateBound

end Config

namespace Machine

/-- The level of the line `t` seconds after the first bus bit of a transfer starts, for the bus bits `ws` it clocks:
bit `j` holds the line over `[j/F_BUS, (j+1)/F_BUS)`, and the line is `Low` before and after
(42_channel_wire.md R114, R115). -/
def levelAt (cfg : Config) (ws : List Bool) (t : ℚ) : Level :=
  if t < 0 then .low
  else
    match ws[⌊t * cfg.busRate⌋.toNat]? with
    | some b => Level.ofBit b
    | none => .low

end Machine

end Sys2Proof
end

