-- ==== Sys2Proof/Safety.lean ====
section
/-! DEFINITION. What a state of a run looks like, when a run has ended, and whether the Host kept its
duties: the terms the statements use. -/

namespace Sys2Proof.Machine

/-- The configuration is accepted, so the agents have steps (00_scope.md R9; 10_state.md R41). -/
def State.Accepted (s : State) : Prop := s.refused = false ∧ s.cfg.wf = true

/-- Accepted, and the Host has no move to come: the next step is the Core's or the Channel's. -/
def State.BlockMoves (s : State) : Prop := s.Accepted ∧ s.host = []

/-- Every response word the block has written in this run, in order, taken by the Host or not
(70_reset_and_hazards.md R150). -/
def State.responses (s : State) : List Word := s.taken ++ s.respQ

/-- Every channel event of this run, in order: those from before the channel was last closed, then the block's log
(70_reset_and_hazards.md R150; log 26). -/
def State.events (s : State) : List ChanEvent := s.past ++ s.chanLog

/-- Every `Start` is followed by its `Done` (70_reset_and_hazards.md R150). -/
def logComplete : List ChanEvent → Bool
  | [] => true
  | .start _ :: .done _ :: rest => logComplete rest
  | _ => false

/-- A log of reported transfers, each of a whole encode buffer and with an outcome the channel may draw
(20_memory.md R55; 42_channel_wire.md R110). -/
def logWf (cfg : Config) : List ChanEvent → Bool
  | [] => true
  | .start buf :: .done o :: rest => decide (buf.length = cfg.LB) && admits o buf && logWf cfg rest
  | _ => false

/-- The level the line holds after the bus bits `sent`: that of the last one, `Low` before the first. -/
def levelAfter (sent : List Bool) : Level :=
  match sent.getLast? with
  | some b => Level.ofBit b
  | none => .low

/-- The invariant of the machine. In `Idle` no transfer is being clocked, the line is `Low` and every transfer of
the log is reported. In `Busy(buf)` the log ends in `Start(buf)`, and then the line and the wire follow the waveform
of what is clocked so far, or it ends in `Start(buf), Done(o)`, and then the line is `Low` again. The wire carries
what the log says (10_state.md R36, R39, R40; 20_memory.md R58; 42_channel_wire.md R115). -/
def State.Inv (s : State) : Prop :=
  s.refused = !s.cfg.wf ∧ logWf s.cfg s.past = true ∧
  match s.phase with
  | .idle =>
    s.xfer = none ∧ s.line = .low ∧ logWf s.cfg s.chanLog = true ∧ s.wire = wireOf s.past ++ wireOf s.chanLog
  | .busy buf =>
    buf.length = s.cfg.LB ∧
    ∃ before, logWf s.cfg before = true ∧
      match s.xfer with
      | some x =>
        s.chanLog = before ++ [.start buf] ∧ admits x.outcome buf = true ∧
        ∃ sent, wave (clocked x.outcome buf) = sent ++ x.left ∧ s.line = levelAfter sent ∧
          s.wire = wireOf s.past ++ wireOf before ++ sent
      | none =>
        s.line = .low ∧ s.wire = wireOf s.past ++ wireOf s.chanLog ∧
        (s.chanLog = before ++ [.start buf] ∨
          ∃ o, admits o buf = true ∧ s.chanLog = before ++ [.start buf, .done o])

/-- A TRANSMIT has begun in the request queue. -/
def transmitQueued (ws : List Word) : Prop := ∃ h ∈ headersOf 0 ws, startsTransmit h = true

/-- What duty HD3 and 42_channel_wire.md R108 make of the channel's link: it is open at no rate but `F_BUS`, and it is
open while a TRANSMIT is queued or being transmitted. -/
def State.LinkInv (s : State) : Prop :=
  (∀ hz, s.link = .opened hz → hz = s.cfg.fBus.toNat) ∧
  ((transmitQueued s.reqQ ∨ ∃ buf, s.phase = .busy buf) → s.link = .opened s.cfg.fBus.toNat)

/-- The buffers handed to the channel, in order (20_memory.md R58, O4). -/
def startsOf : List ChanEvent → List (List Byte)
  | [] => []
  | .start buf :: rest => buf :: startsOf rest
  | .done _ :: rest => startsOf rest

/-- The buffers a list of commands hands to the channel: one for each TRANSMIT of the right length
(20_memory.md R55). -/
def transfersOf (cfg : Config) : List Instr → List (List Byte)
  | [] => []
  | .encode _ :: is => transfersOf cfg is
  | .transmit px :: is => if px.length = cfg.N then encodeFn cfg px :: transfersOf cfg is else transfersOf cfg is

/-- The responses a command may be given (30_encoding.md R75): the shape mismatch, the encoded buffer, or one of the
two reports of a transfer. -/
def answers (cfg : Config) (i : Instr) (r : List Word) : Prop :=
  if i.frame.length ≠ cfg.N then r = [respHeader (opcode i) .shapeMismatch]
  else
    match i with
    | .encode px => r = respHeader opEncode .ok :: BitVec.ofNat 32 cfg.LB :: dataWords (encodeFn cfg px)
    | .transmit _ => r = [respHeader opTransmit .ok] ∨ r = [respHeader opTransmit .channelWriteFailure]

/-- The commands of a word stream that is framed as duty HD1 asks, `none` for a stream that is not; `fuel` bounds the
number of commands. -/
def commandsOf : Nat → List Word → Option (List Instr)
  | _, [] => some []
  | 0, _ :: _ => none
  | fuel + 1, w :: ws =>
    match decode (w :: ws) with
    | .command i rest => (commandsOf fuel rest).map (i :: ·)
    | .illegal _ _ => none
    | .held => none

/-- The commands of a framed stream (41_commands.md R107, HD1). -/
def framed (ws : List Word) : Option (List Instr) := commandsOf ws.length ws

/-- The words a Host script writes. -/
def writtenWords : List HostMove → List Word
  | [] => []
  | .write w :: ms => w :: writtenWords ms
  | .take :: ms => writtenWords ms
  | .reset :: ms => writtenWords ms
  | .openChannel _ :: ms => writtenWords ms
  | .closeChannel :: ms => writtenWords ms
  | .closeToReconnect :: ms => writtenWords ms
  | .wait :: ms => writtenWords ms

/-- The run since the last reset has ended (70_reset_and_hazards.md R150): the Host has no word to come, every word is
consumed, the Core is `Idle`, every `Start` has its `Done` and the configuration is not refused. Other moves of the Host
may be to come. No word but one that a reset loses leaves `reqQ` unconsumed, and a reset begins another run (R138). -/
def State.ended (s : State) : Bool :=
  decide (writtenWords s.host = []) && decide (s.reqQ = []) && decide (s.phase = .idle) && logComplete s.chanLog &&
    !s.refused

/-- Duty HD1 of a Host that makes no further move: its last command has all its payload (41_commands.md R107). No written
word breaks the duty, since a word after a payload is the next header; an illegal header is a command of one word. -/
def State.keepsHD1 (s : State) : Bool := atHeader s

/-- Duty HD4 of a Host that makes no further move: BLANK is its last command, and it was run (41_commands.md R107).
DESIGN CHOICE (log 4): after a reset that lost a command unrun the Host has no last command, so it must issue BLANK again. -/
def State.keepsHD4 (s : State) : Bool := allRun s && lastIsBlank s

/-- The duties of 41_commands.md R107 that a Host breaks by making no further move. Those that a move breaks the step
refuses, HD3 among them (log 4). -/
def State.keepsDuties (s : State) : Bool := s.keepsHD1 && s.keepsHD4

end Sys2Proof.Machine
end

