-- ==== Sys2Proof/Certificates/Slice0/Obligations.lean ====
section
/-! DEFINITION. The statements for the provers. Each ranges over every configuration, since the configuration is a
field of the state. -/

open Sys2Proof Sys2Proof.Machine

/-! ### Encoding -/

/-- Encoding and decoding agree: the decoder reads back every well-formed command, every operand at every value, and
stops at the command's last word (30_encoding.md section 1; an inference, not a sentence of the spec). -/
def Obligations.DecodeInvertsEncode : Prop :=
  ∀ (i : Instr) (rest : List Word), i.wf = true → decode (encode i ++ rest) = .command i rest

/-- The other direction: whatever the decoder reads as a command is well formed, and the words consumed are its
encoding, so each command has one spelling (30_encoding.md section 1; an inference, not a sentence of the spec). -/
def Obligations.DecodedWordsAreTheEncoding : Prop :=
  ∀ (i : Instr) (ws rest : List Word), decode ws = .command i rest → i.wf = true ∧ ws = encode i ++ rest

/-- 30_encoding.md R68. -/
def Obligations.HeaderLegality : Prop :=
  ∀ (h : Word) (ws : List Word),
    (legal h = true ↔ (h.extractLsb' 24 8 = 0x01#8 ∨ h.extractLsb' 24 8 = 0x02#8) ∧ h.extractLsb' 16 8 = 0#8) ∧
    (legal h = true ↔ h &&& 0xFFFF0000#32 = 0x01000000#32 ∨ h &&& 0xFFFF0000#32 = 0x02000000#32) ∧
    (legal h = false → decode (h :: ws) = .illegal h ws) ∧
    (legal h = true → ∀ h' rest, decode (h :: ws) ≠ .illegal h' rest)

/-- The length of a command is known from its header, and the Core holds until the payload has arrived (30_encoding.md
section 1; that a hold is a step to the same state is the model's choice, log 8). -/
def Obligations.CommandLengthAndHold : Prop :=
  (∀ (h : Word) (ws : List Word),
    (legal h = true → 3 * (h.extractLsb' 0 16).toNat ≤ ws.length →
      ∃ i, decode (h :: ws) = .command i (ws.drop (3 * (h.extractLsb' 0 16).toNat))) ∧
    (legal h = false → decode (h :: ws) = .illegal h ws)) ∧
  ∀ (s : State) (h : Word) (ws : List Word), s.BlockMoves → s.phase = .idle → s.reqQ = h :: ws → legal h = true →
    ws.length < 3 * (h.extractLsb' 0 16).toNat → step s = .next s

/-- 30_encoding.md R69, R70: the payload holds red, green and blue of each pixel, as signed 32-bit words. -/
def Obligations.PayloadWordsAreSignedChannels : Prop :=
  ∀ (h : Word) (ws rest : List Word) (i : Instr), decode (h :: ws) = .command i rest →
    opcode i = h.extractLsb' 24 8 ∧
    i.frame.length = (h.extractLsb' 0 16).toNat ∧
    rest = ws.drop (3 * i.frame.length) ∧
    3 * i.frame.length ≤ ws.length ∧
    ∀ p, p < i.frame.length →
      i.frame[p]? = some ⟨(ws.getD (3 * p) 0).toInt, (ws.getD (3 * p + 1) 0).toInt, (ws.getD (3 * p + 2) 0).toInt⟩

/-- The words of 95_test_vectors.md L1.4, L2.9, L2.10 and L2.12 decode to what they stand for. -/
def Obligations.WordsOfTheSpecDecode : Prop :=
  decode [0x01000001, 0x00000000, 0x000000B0, 0x00000000] = .command (.encode [⟨0, 176, 0⟩]) [] ∧
  decode [0x02000001, 0x0000012C, 0xFFFFFFF6, 0x00000000, 0x7F000003] =
    .command (.transmit [⟨300, -10, 0⟩]) [0x7F000003] ∧
  decode [0x02000000] = .command (.transmit []) [] ∧
  decode [0x01010001, 0x00000005] = .illegal 0x01010001 [0x00000005] ∧
  decode [0x03000004] = .illegal 0x03000004 [] ∧
  decode [0x0100FFFF, 0x00000000] = .held

/-- 30_encoding.md R78: the words BLANK assembles to, and the command they are. -/
def Obligations.BlankAssemblesToZeroTransmit : Prop :=
  ∀ (cfg : Config) (rest : List Word),
    ∃ ws, assembleLine cfg .blank = some ws ∧
      ws = (0x02000000#32 ||| BitVec.ofNat 32 cfg.N) :: List.replicate (3 * cfg.N) 0 ∧
      decode (ws ++ rest) = .command (.transmit (List.replicate cfg.N ⟨0, 0, 0⟩)) rest

/-! ### Datapath -/

/-- 40_datapath.md R80. -/
def Obligations.ClampSaturatesAndNeverWraps : Prop :=
  ∀ v : Int,
    (v < 0 → clamp v = 0) ∧ (255 < v → clamp v = 255) ∧ (0 ≤ v → v ≤ 255 → ((clamp v).toNat : Int) = v)

/-- 40_datapath.md R81. -/
def Obligations.GammaStageIsTableOrIdentity : Prop :=
  ∀ cfg : Config,
    (∀ u, cfg.gammaEn = true → (gam cfg u).toNat = ((cfg.gamma.toList).getD u.toNat 0).toNat) ∧
    (∀ u, cfg.gammaEn = false → gam cfg u = u) ∧
    (cfg.wf = true → gam cfg 0 = 0 ∧ ∀ u v : Byte, u ≤ v → gam cfg u ≤ gam cfg v)

/-- 40_datapath.md R82, R83: one PREP for all channels, and Green, Red, Blue on the wire. -/
def Obligations.WireOrderIsGreenRedBlue : Prop :=
  ∀ (cfg : Config) (r g b : Int),
    wireBytes cfg ⟨r, g, b⟩ = [gam cfg (clamp g), gam cfg (clamp r), gam cfg (clamp b)]

/-- 40_datapath.md R84. -/
def Obligations.BitsAreMostSignificantFirst : Prop :=
  ∀ u : Byte, (bits u).length = 8 ∧ ∀ i, i < 8 → (bits u)[i]? = some (u.getLsbD (7 - i))

/-- 40_datapath.md R85. -/
def Obligations.GroupIsThePatternFirstBitFirst : Prop :=
  ∀ (cfg : Config) (t : Bool),
    (group cfg t).length = cfg.B ∧
    (∀ i, i < cfg.B → (group cfg t)[i]? = some ((if t then cfg.pat1 else cfg.pat0).getLsbD (cfg.B - 1 - i))) ∧
    (cfg.wf = true →
      (group cfg t).head? = some true ∧ (group cfg t).getLast? = some false ∧
      (group cfg true).count true = (group cfg false).count true + (cfg.high true - cfg.high false) ∧
      0 < cfg.high true - cfg.high false)

/-- What checks WF4 to WF6 say of the groups: one high pulse, then one low pulse, longer high for a 1 (an inference
from 10_state.md R33). -/
def Obligations.LegalGroupIsOneHighPulse : Prop :=
  ∀ (cfg : Config) (t : Bool), cfg.wf = true →
    1 ≤ cfg.high t ∧ cfg.high t < cfg.B ∧ cfg.high false < cfg.high true ∧
    group cfg t = List.replicate (cfg.high t) true ++ List.replicate (cfg.B - cfg.high t) false

/-- The packing stage (40_datapath.md section 1, its pseudocode): the first of eight bus bits is bit 7. -/
def Obligations.PackPutsFirstBitHighest : Prop :=
  ∀ (l : List Bool) (n : Nat), l.length = 8 * n →
    (pack l).length = n ∧
    ∀ j i, j < n → i < 8 → ((pack l).getD j 0).getLsbD (7 - i) = l.getD (8 * j + i) false

/-- The length law, which the spec derives (40_datapath.md section 2): `LB = 3*B*N + R` bytes. -/
def Obligations.EncodedLengthLaw : Prop :=
  ∀ (cfg : Config) (px : Frame), px.length = cfg.N → (encodeFn cfg px).length = 3 * cfg.B * cfg.N + cfg.R

/-- Where each group of the frame lies in the buffer, which the spec derives (40_datapath.md section 1, "Group
position"): bus bit `j` of the group of bit `i` of wire channel `c` of pixel `p`. -/
def Obligations.GroupPositionInBuffer : Prop :=
  ∀ (cfg : Config) (px : Frame) (p c i j : Nat) (q : Pixel),
    px.length = cfg.N → px[p]? = some q → c < 3 → i < 8 → j < cfg.B →
    let k := (3 * p + c) * 8 + (7 - i)
    let o := k * cfg.B + j
    o / 8 < 3 * cfg.B * cfg.N ∧
    ((encodeFn cfg px).getD (o / 8) 0).getLsbD (7 - o % 8) =
      (group cfg (((wireBytes cfg q).getD c 0).getLsbD i)).getD j false

/-- Pixel `p` occupies buffer bytes `3*B*p` to `3*B*(p+1) - 1`, and no other pixel reaches them, which the spec derives
(40_datapath.md section 1, "Group position"). -/
def Obligations.PixelOwnsItsBytes : Prop :=
  ∀ (cfg : Config) (px : Frame) (p : Nat) (q : Pixel), px[p]? = some q →
    memRead (encodeFn cfg px) (3 * cfg.B * p) (3 * cfg.B) = pack ((wireBytes cfg q).flatMap (xb cfg))

/-- 40_datapath.md R90: R zero bytes after the last pixel's last group, and none before the first pixel. -/
def Obligations.PaddingOnceAfterLastPixel : Prop :=
  ∀ (cfg : Config) (px : Frame), px.length = cfg.N →
    memRead (encodeFn cfg px) (3 * cfg.B * cfg.N) cfg.R = List.replicate cfg.R 0 ∧
    (encodeFn cfg px).length = 3 * cfg.B * cfg.N + cfg.R ∧
    wave (memRead (encodeFn cfg px) 0 (3 * cfg.B * cfg.N)) = serial cfg px ∧
    wave (memRead (encodeFn cfg px) (3 * cfg.B * cfg.N) cfg.R) = List.replicate (8 * cfg.R) false

/-- The datapath's two writes (20_memory.md section 1, the encode buffer) set every byte of a buffer of `LB` bytes,
whatever it held. -/
def Obligations.EveryBufferByteIsWritten : Prop :=
  ∀ (cfg : Config) (px : Frame) (fresh : List Byte), px.length = cfg.N → fresh.length = cfg.LB →
    memWrite (memWrite fresh 0 (pack (serial cfg px))) (3 * cfg.B * cfg.N) (pad cfg) = encodeFn cfg px

/-- The all-zero frame, which the spec derives (40_datapath.md section 2): 24*N groups of a 0 bit, then the padding,
with gamma on or off. -/
def Obligations.AllZeroFrameIsZeroGroups : Prop :=
  ∀ cfg : Config, cfg.wf = true →
    wave (encodeFn cfg (Frame.blank cfg.N)) =
      (List.replicate (24 * cfg.N) (group cfg false)).flatten ++ List.replicate (8 * cfg.R) false

/-- Duty HD2 loses nothing: a frame the Host has saturated has an encoding, and its buffer is the one of the frame
before (an inference from 41_commands.md R107 and 40_datapath.md R80). -/
def Obligations.SaturationDoesNotChangeTheBuffer : Prop :=
  ∀ (cfg : Config) (px : Frame), px.length ≤ 65535 →
    Frame.wf (px.map saturatePixel) = true ∧ encodeFn cfg (px.map saturatePixel) = encodeFn cfg px

/-! ### Commands -/

/-- 30_encoding.md R72. -/
def Obligations.ResponseHeaderFields : Prop :=
  ∀ (ope : Byte) (st : Status),
    (respHeader ope st).extractLsb' 24 8 = ope ∧
    (respHeader ope st).extractLsb' 8 16 = 0#16 ∧
    (respHeader ope st).extractLsb' 0 8 = statusCode st

/-- 41_commands.md R100: ENCODE answers a next state on every frame. Of the right length, its response is OK, `LB` and
the buffer's bytes packed four to a word; of another length, SHAPE_MISMATCH. Nothing else of the state changes. -/
def Obligations.EncodeAnswersTheBuffer : Prop :=
  ∀ (s : State) (px : Frame),
    (px.length ≠ s.cfg.N → exec (.encode px) s = .next { s with respQ := s.respQ ++ [0x01000001#32] }) ∧
    (px.length = s.cfg.N → s.cfg.wf = true →
      ∃ (lb : Word) (ds : List Word),
        exec (.encode px) s = .next { s with respQ := s.respQ ++ 0x01000000#32 :: lb :: ds } ∧
        lb.toNat = (encodeFn s.cfg px).length ∧
        ds.length = ((encodeFn s.cfg px).length + 3) / 4 ∧
        ∀ j i, j < ds.length → i < 4 →
          (ds.getD j 0).extractLsb' (8 * i) 8 = (encodeFn s.cfg px).getD (4 * j + i) 0)

/-- 41_commands.md R101: TRANSMIT answers a next state on every frame. Of the right length, exactly one `Start` of the
whole buffer is logged and the Core waits in `Busy`; of another length, SHAPE_MISMATCH and no write. After the
channel's report the second Core step returns to `Idle` and answers; before it, no step does. Nothing else of the
state changes. -/
def Obligations.TransmitIssuesThenCompletes : Prop :=
  (∀ (s : State) (px : Frame),
    (px.length ≠ s.cfg.N → exec (.transmit px) s = .next { s with respQ := s.respQ ++ [0x02000001#32] }) ∧
    (px.length = s.cfg.N →
      exec (.transmit px) s =
        .next { s with chanLog := s.chanLog ++ [.start (encodeFn s.cfg px)], phase := .busy (encodeFn s.cfg px) })) ∧
  (∀ (s : State) (buf : List Byte) (before : List ChanEvent) (o : ChanOutcome),
    s.BlockMoves → s.phase = .busy buf → s.xfer = none → s.chanLog = before ++ [.done o] →
    (o = .ok → step s = .next { s with phase := .idle, respQ := s.respQ ++ [0x02000000#32] }) ∧
    (∀ k, o = .fail k → step s = .next { s with phase := .idle, respQ := s.respQ ++ [0x02000002#32] })) ∧
  ∀ (s : State) (buf : List Byte),
    s.BlockMoves → s.phase = .busy buf → (∀ o, s.chanLog.getLast? ≠ some (.done o)) →
    ∃ t, step s = .next t ∧ t.phase = .busy buf ∧ t.respQ = s.respQ

/-- 41_commands.md R99: a complete command of the wrong length is consumed whole and answered
SHAPE_MISMATCH in one step; nothing is encoded and nothing is handed to the channel, whatever the channel's state. -/
def Obligations.WrongLengthIsConsumedAndRejected : Prop :=
  ∀ (s : State) (i : Instr) (rest : List Word),
    s.BlockMoves → s.phase = .idle → s.reqQ = encode i ++ rest → i.wf = true → i.frame.length ≠ s.cfg.N →
    ((∃ px, i = .encode px) → step s = .next { s with reqQ := rest, respQ := s.respQ ++ [0x01000001#32] }) ∧
    ((∃ px, i = .transmit px) → step s = .next { s with reqQ := rest, respQ := s.respQ ++ [0x02000001#32] })

/-- 41_commands.md R103: an illegal header is one word, answered with its opcode and code 3; nothing else changes. -/
def Obligations.IllegalHeaderIsAnswered : Prop :=
  ∀ (s : State) (h : Word) (ws : List Word),
    s.BlockMoves → s.phase = .idle → s.reqQ = h :: ws →
    ¬((h.extractLsb' 24 8 = 0x01#8 ∨ h.extractLsb' 24 8 = 0x02#8) ∧ h.extractLsb' 16 8 = 0#8) →
    step s = .next { s with reqQ := ws, respQ := s.respQ ++ [(h &&& 0xFF000000#32) ||| 0x00000003#32] }

/-- BLANK's shape check always passes, and its buffer is the all-zero one (41_commands.md R102, of which this leaves
out the outcome). -/
def Obligations.BlankAlwaysStartsItsTransfer : Prop :=
  ∀ s : State, s.cfg.wf = true →
    ∃ buf, exec (Instr.blank s.cfg) s = .next { s with chanLog := s.chanLog ++ [.start buf], phase := .busy buf } ∧
      wave buf =
        (List.replicate (24 * s.cfg.N) (group s.cfg false)).flatten ++ List.replicate (8 * s.cfg.R) false

/-- Statelessness (10_state.md section 3; the channel's outcome is left to `DrawnOutcomeIsFree`): what a command writes and
starts depends on the configuration and its own words alone, whatever came before. -/
def Obligations.CommandsAreStateless : Prop :=
  ∀ (i : Instr) (s₁ s₂ : State), s₁.cfg = s₂.cfg →
    ∃ t₁ t₂ ws es, exec i s₁ = .next t₁ ∧ exec i s₂ = .next t₂ ∧
      t₁.respQ = s₁.respQ ++ ws ∧ t₂.respQ = s₂.respQ ++ ws ∧
      t₁.chanLog = s₁.chanLog ++ es ∧ t₂.chanLog = s₂.chanLog ++ es

/-! ### One step -/

/-- A step in `Idle` runs the command the decoder reads, after consuming its words (41_commands.md section 1), with no Host
move to come or one `wait` of the Host first (log 3). -/
def Obligations.StepRunsTheDecodedCommand : Prop :=
  ∀ (s : State) (i : Instr) (rest : List Word),
    s.Accepted → s.phase = .idle → decode s.reqQ = .command i rest →
    (s.host = [] → step s = exec i { s with reqQ := rest }) ∧
    (∀ ms, s.host = .wait :: ms → step s = exec i { s with host := ms, reqQ := rest })

/-- When the machine stops: never with a fault; with the configuration's refusal exactly when the configuration is not
accepted; and otherwise exactly on a move of the Host that breaks a duty (60_exceptions.md R135; that such a move is a
refusal, and how the duties are read, is the model's choice, log 4, and when a closed channel is opened again log 15). -/
def Obligations.StepStopsOnlyOnRefusals : Prop :=
  ∀ s : State,
    (∀ f, step s ≠ .fault f) ∧
    (step s = .refused .illFormedConfig ↔ s.refused = true ∨ s.cfg.wf = false) ∧
    ∀ r, s.Accepted → (step s = .refused r ↔
      (r = .transmitOnClosedChannel ∧ s.link ≠ .opened s.cfg.fBus.toNat ∧ owed 0 s.reqQ = 0 ∧
        ∃ w, s.host.head? = some (.write w) ∧ w &&& 0xFFFF0000#32 = 0x02000000#32) ∨
      (r = .openOutOfOrder ∧ ∃ hz, s.host.head? = some (.openChannel hz) ∧
        ¬(s.link = .closed ∧ hz = s.cfg.fBus.toNat)) ∨
      (r = .closeWhileBusy ∧ (s.host.head? = some .closeChannel ∨ s.host.head? = some .closeToReconnect) ∧
        ∃ buf, s.phase = .busy buf) ∨
      (r = .closeOutOfOrder ∧ s.phase = .idle ∧ s.host.head? = some .closeChannel ∧
        ¬(s.link = .opened s.cfg.fBus.toNat ∧ s.reqQ = [] ∧ s.respQ = [] ∧
          s.lastCmd = encode (Instr.blank s.cfg) ∧ s.lastAlone = true)) ∨
      (r = .closeOutOfOrder ∧ s.phase = .idle ∧ s.host.head? = some .closeToReconnect ∧
        ¬(s.link = .opened s.cfg.fBus.toNat ∧ s.reqQ = [] ∧ s.respQ = [] ∧
          (s.hadFailure = true ∨ ∃ k, .done (.fail k) ∈ s.chanLog))))

/-- The Host writes and takes in any phase, and changes nothing else of the block or the channel (41_commands.md section 3;
its moves as a script are the model's choice, log 3). Beside its script and what it took, the Host's own memory changes on
a write: `lastCmd` and `lastAlone` are the model's fields and not the spec's, and what they hold is the model's choice (log
16; that "outstanding" means not run, or its response not read, is log 4). A TRANSMIT header is written while the channel
is open at `F_BUS` (duty HD3), every other word at any time; that the other TRANSMIT headers are refused is
`StepStopsOnlyOnRefusals`. -/
def Obligations.HostWritesAndTakesInAnyPhase : Prop :=
  ∀ (s : State) (ms : List HostMove), s.Accepted →
    (∀ w, s.host = .write w :: ms →
      s.link = .opened s.cfg.fBus.toNat ∨ owed 0 s.reqQ ≠ 0 ∨ w &&& 0xFFFF0000#32 ≠ 0x02000000#32 →
      step s = .next { s with
        host := ms, reqQ := s.reqQ ++ [w]
        lastCmd := if owed 0 s.reqQ = 0 then [w] else s.lastCmd ++ [w]
        lastAlone :=
          if owed 0 s.reqQ = 0 then decide (s.phase = .idle ∧ s.reqQ = [] ∧ s.respQ = []) else s.lastAlone }) ∧
    (∀ w ws, s.host = .take :: ms → s.respQ = w :: ws →
      step s = .next { s with host := ms, respQ := ws, taken := s.taken ++ [w] })

/-- The Host opens a closed channel at `F_BUS`, in any phase, and changes nothing else but what it remembers of failures
(42_channel_wire.md section 1; 70_reset_and_hazards.md section 2). That a channel closed for a reconnect, or at a shutdown
before the last reset, is opened again, and that any phase will do, is the model's choice (log 15). -/
def Obligations.HostOpensTheChannelAtBusRate : Prop :=
  ∀ (s : State) (ms : List HostMove), s.Accepted → s.host = .openChannel s.cfg.fBus.toNat :: ms → s.link = .closed →
    step s = .next { s with host := ms, link := .opened s.cfg.fBus.toNat, hadFailure := false }

/-- Closing the channel leaves of the block's state only the configuration (60_exceptions.md section 3, "Power states"). With
no command outstanding the Host closes it at the end of the shutdown, when BLANK was its last command and was begun with
no other outstanding, and then it is shut down; or for a reconnect, when a transfer has failed since it was opened, and
then it may be opened again: the two moves are the model's choice (logs 4, 15). That responses, events and bus bits stay
observed over the close is the model's choice too (log 26). -/
def Obligations.CloseLeavesOnlyTheConfiguration : Prop :=
  ∀ (s : State) (ms : List HostMove) (m : HostMove) (l : Link), s.Accepted → s.host = m :: ms →
    s.link = .opened s.cfg.fBus.toNat → s.phase = .idle → s.reqQ = [] → s.respQ = [] →
    (m = .closeChannel ∧ l = .shutDown ∧ s.lastCmd = encode (Instr.blank s.cfg) ∧ s.lastAlone = true) ∨
      (m = .closeToReconnect ∧ l = .closed ∧ (s.hadFailure = true ∨ ∃ k, .done (.fail k) ∈ s.chanLog)) →
    ∃ t, step s = .next t ∧ t.cfg = s.cfg ∧ t.phase = .idle ∧ t.reqQ = [] ∧ t.respQ = [] ∧ t.chanLog = [] ∧
      t.line = .low ∧ t.refused = false ∧ t.link = l ∧
      t.responses = s.responses ∧ t.events = s.events ∧ t.wire = s.wire ∧ t.host = ms

/-- 70_reset_and_hazards.md R136: a reset, in any phase, gives every piece of run-time state its reset value and keeps
the configuration; unconsumed words and untaken responses are lost. -/
def Obligations.HostResetRestoresRunTimeState : Prop :=
  ∀ (s : State) (ms : List HostMove), s.Accepted → s.host = .reset :: ms →
    ∃ t, step s = .next t ∧ t.cfg = s.cfg ∧ t.phase = .idle ∧ t.reqQ = [] ∧ t.respQ = [] ∧ t.chanLog = [] ∧
      t.line = .low ∧ t.refused = false

/-- 70_reset_and_hazards.md R142: while `Busy` the block reads no request word and starts no transfer, whatever is
queued, and it leaves `Busy` only after the log ends in `Done`. -/
def Obligations.BusyReadsNoRequestAndStartsNothing : Prop :=
  ∀ (s : State) (buf : List Byte), s.BlockMoves → s.phase = .busy buf →
    ∃ t, step s = .next t ∧ t.reqQ = s.reqQ ∧
      (t.chanLog = s.chanLog ∨ ∃ o, t.chanLog = s.chanLog ++ [.done o]) ∧
      (t.phase = .busy buf ∨ (t.phase = .idle ∧ ∃ o, s.chanLog.getLast? = some (.done o)))

/-- The Channel takes up the transfer handed to it with an outcome R110 admits, whichever is drawn, and each such outcome
can be (42_channel_wire.md R110; the draw at the start of the transfer is the model's choice, logs 5 and 6). -/
def Obligations.DrawnOutcomeIsFree : Prop :=
  ∀ (s : State) (buf : List Byte) (before : List ChanEvent),
    s.BlockMoves → s.phase = .busy buf → s.xfer = none → s.chanLog = before ++ [.start buf] →
    (∃ o chan draws, admits o buf = true ∧
      step s = .next { s with chan := chan, draws := draws, xfer := some ⟨o, wave (clocked o buf)⟩ }) ∧
    ∀ o os, admits o buf = true → s.chan = o :: os →
      step s = .next { s with chan := os, xfer := some ⟨o, wave (clocked o buf)⟩ }

/-- The Channel clocks one bus bit a step, the line at the bit's level, and reports after the last, the line `Low`
again (42_channel_wire.md R110, R114, R115; one step a bit is the model's choice, log 6). -/
def Obligations.ChannelClocksBitsThenReports : Prop :=
  ∀ (s : State) (buf : List Byte) (o : ChanOutcome), s.BlockMoves → s.phase = .busy buf →
    (∀ left, s.xfer = some ⟨o, true :: left⟩ →
      step s = .next { s with line := .high, wire := s.wire ++ [true], xfer := some ⟨o, left⟩ }) ∧
    (∀ left, s.xfer = some ⟨o, false :: left⟩ →
      step s = .next { s with line := .low, wire := s.wire ++ [false], xfer := some ⟨o, left⟩ }) ∧
    (s.xfer = some ⟨o, []⟩ →
      step s = .next { s with line := .low, chanLog := s.chanLog ++ [.done o], xfer := none })

/-- An ended run stays as it is until the Host moves, and no move the Host may still make un-ends it
(70_reset_and_hazards.md R137, R150; the hold as a step is log 8). -/
def Obligations.EndedRunHolds : Prop :=
  ∀ s : State, s.ended = true → s.cfg.wf = true →
    (s.host = [] → step s = .next s) ∧ ∀ t, step s = .next t → t.ended = true

/-- A framed request stream stays framed, and no command of it is answered ILLEGAL_COMMAND (41_commands.md R107 HD1;
70_reset_and_hazards.md R145). -/
def Obligations.FramedStreamNeverMeetsIllegal : Prop :=
  ∀ s : State, s.BlockMoves → (framed s.reqQ).isSome = true →
    ∃ t ws, step s = .next t ∧ (framed t.reqQ).isSome = true ∧ t.respQ = s.respQ ++ ws ∧
      ∀ w, ws.head? = some w → w.extractLsb' 0 8 ≠ statusCode .illegalCommand

/-! ### Runs -/

/-- 10_state.md R45, for every well-formed configuration. -/
def Obligations.ResetLeavesTheListedValues : Prop :=
  ∀ cfg : Config, cfg.wf = true →
    let s := State.resetWith cfg
    s.cfg = cfg ∧ s.phase = .idle ∧ s.reqQ = [] ∧ s.respQ = [] ∧ s.chanLog = [] ∧ s.line = .low ∧
      s.refused = false ∧ Config.tBitNs = 1250 ∧ Config.tResetMinNs = 50000 ∧ decode s.reqQ = .held

/-- The invariant holds after reset, for every configuration. It rests on the reset values of the model's own fields (log
20), and its form for an ill-formed configuration on the mark `refused` (log 11): the spec gives such a configuration no
reset state at all (10_state.md R41). -/
def Obligations.ResetMeetsTheInvariant : Prop :=
  ∀ cfg : Config, (State.resetWith cfg).Inv

/-- What the duties make of the channel's link holds after reset, for every configuration. It rests on the link being
closed then (log 20), since the Host opens the channel after the reset (70_reset_and_hazards.md section 2). -/
def Obligations.ResetMeetsTheLinkInvariant : Prop :=
  ∀ cfg : Config, (State.resetWith cfg).LinkInv

/-- Every step of every agent keeps it: the channel is open at no rate but `F_BUS`, and it is open at `F_BUS` while a
TRANSMIT is queued or its transfer is under way (41_commands.md section 3, duty HD3; 42_channel_wire.md section 1;
70_reset_and_hazards.md section 2; the Host's moves that would break it are refused, log 4). -/
def Obligations.EveryStepKeepsTheLinkInvariant : Prop :=
  ∀ s t : State, s.LinkInv → step s = .next t → t.LinkInv

/-- Every step of every agent keeps the invariant: in `Idle` the line is `Low` and every transfer of the log is
reported; in `Busy` the log ends in the transfer in progress and the line and the wire follow its waveform
(10_state.md R36, R39, R40; 20_memory.md R58; the transfer's bit steps are the model's choice, log 6). -/
def Obligations.EveryStepKeepsTheInvariant : Prop :=
  ∀ s t : State, s.Inv → step s = .next t → t.Inv

/-- No step of any agent, reset included, changes a configuration register (10_state.md section 2). -/
def Obligations.ConfigurationNeverChanges : Prop :=
  (∀ s t : State, step s = .next t → t.cfg = s.cfg) ∧
  ∀ (n : Nat) (s t : State), core.run n s = .next t → State.cfg t = s.cfg

/-- Outside a reset, what was answered and what was logged is never taken back. A step adds at most one channel event, and
at most one response, whole: a header alone with a status that its command can have, or an OK of ENCODE with `LB` and
its data words; and it ends in `Idle` if it adds one (20_memory.md R58 O1 to O5; 30_encoding.md R75). Only a close of the
channel empties the block's log, whose events stay observed (log 26). -/
def Obligations.HistoryOnlyGrows : Prop :=
  ∀ s t : State, step s = .next t → s.host.head? ≠ some .reset →
    ∃ ws es, t.responses = s.responses ++ ws ∧ t.events = s.events ++ es ∧ es.length ≤ 1 ∧
      (s.host.head? ≠ some .closeChannel → s.host.head? ≠ some .closeToReconnect → t.chanLog = s.chanLog ++ es) ∧
      (ws ≠ [] → t.phase = .idle ∧
        ((∃ ope st, ws = [respHeader ope st] ∧ (st = .ok ∨ st = .channelWriteFailure → ope = 0x02#8) ∧
            (st = .shapeMismatch → ope = 0x01#8 ∨ ope = 0x02#8)) ∨
          ∃ data, ws = 0x01000000#32 :: BitVec.ofNat 32 s.cfg.LB :: data ∧ data.length = (s.cfg.LB + 3) / 4))

/-- A transfer runs to its end: the bus bits of the clocked bytes go out in order, the channel reports an outcome R110
admits and TRANSMIT answers, all within `8*k + 3` steps for `k` clocked bytes. That the channel reports at all is
the fairness ASSUMED in 42_channel_wire.md R112 (log 9); the number of steps is the model's (log 6). -/
def Obligations.TransferRunsToItsResponse : Prop :=
  ∀ (s : State) (buf : List Byte) (before : List ChanEvent),
    s.BlockMoves → s.phase = .busy buf → s.xfer = none → s.chanLog = before ++ [.start buf] →
    ∃ o chan draws, admits o buf = true ∧
      core.run (8 * (clocked o buf).length + 3) s =
        .next { s with
          phase := .idle, chanLog := s.chanLog ++ [.done o], line := .low, wire := s.wire ++ wave (clocked o buf)
          respQ := s.respQ ++ [if o = .ok then 0x02000000#32 else 0x02000002#32], chan := chan, draws := draws }

/-- Every queued command is answered, in order, one response each, and each TRANSMIT of the right length hands the
channel its buffer once, in order (20_memory.md R58 O1 to O5; 20_memory.md R55; 20_memory.md R61). That each transfer is
reported is the fairness ASSUMED in 42_channel_wire.md R112 (log 9). -/
def Obligations.EveryQueuedCommandIsAnsweredInOrder : Prop :=
  ∀ (s : State) (is : List Instr), s.BlockMoves → s.Inv → s.phase = .idle → (∀ i ∈ is, i.wf = true) →
    s.reqQ = is.flatMap encode →
    ∃ n t rs es, core.run n s = .next t ∧ State.ended t = true ∧ State.responses t = s.responses ++ rs.flatten ∧
      List.Forall₂ (answers s.cfg) is rs ∧ State.chanLog t = s.chanLog ++ es ∧ startsOf es = transfersOf s.cfg is

/-! ### The wire -/

/-- The protocol bits can be recovered from the waveform group by group, which the spec derives (42_channel_wire.md
section 2, "Protocol bits on the wire"). -/
def Obligations.WaveformGivesBackTheFrame : Prop :=
  ∀ (cfg : Config) (px : Frame), cfg.wf = true → px.length = cfg.N →
    recoverBits cfg (24 * cfg.N) (wave (encodeFn cfg px)) = (px.flatMap (wireBytes cfg)).flatMap bits

/-- On one contiguous successful transfer each protocol bit lasts `B/F_BUS` and is `High` for its first `Ht/F_BUS`, then
`Low`, which the spec derives (42_channel_wire.md section 2, "Protocol bit timing"). It rests on contiguity (log 7). -/
def Obligations.ProtocolBitPulseWidths : Prop :=
  ∀ (cfg : Config) (px : Frame) (k : Nat) (b : Bool), cfg.wf = true → px.length = cfg.N →
    ((px.flatMap (wireBytes cfg)).flatMap bits)[k]? = some b →
    ∀ t : ℚ,
      (cfg.busTime (k * cfg.B) ≤ t → t < cfg.busTime (k * cfg.B + cfg.high b) →
        levelAt cfg (wave (encodeFn cfg px)) t = .high) ∧
      (cfg.busTime (k * cfg.B + cfg.high b) ≤ t → t < cfg.busTime ((k + 1) * cfg.B) →
        levelAt cfg (wave (encodeFn cfg px)) t = .low)

/-- On the line of one contiguous successful transfer, taken alone: after the last group it is `Low` for the whole padding,
and then until the next transfer's first bit; and under TWF3 the padding alone lasts at least 50 µs, which the spec
derives (42_channel_wire.md section 2, "Reset/latch"). The line at an instant rests on contiguity (log 7). -/
def Obligations.LatchLowAfterLastGroup : Prop :=
  ∀ (cfg : Config) (px : Frame), cfg.wf = true → px.length = cfg.N →
    (∀ t : ℚ, cfg.busTime (24 * cfg.B * cfg.N) ≤ t → levelAt cfg (wave (encodeFn cfg px)) t = .low) ∧
    (cfg.twf3 → cfg.busTime (8 * cfg.LB) - cfg.busTime (24 * cfg.B * cfg.N) ≥ 50 / 10 ^ 6)

/-- Check TWF3 over the integers (10_state.md R34, TWF3 alone). -/
def Obligations.LatchCheckOverIntegers : Prop :=
  ∀ cfg : Config, cfg.wf = true → (cfg.twf3 ↔ 160000 * cfg.R ≥ cfg.fBus.toNat)

/-- The transfer's bus bits last `8*LB/F_BUS` seconds, and the frame rate bound is one over that, which the spec derives
(70_reset_and_hazards.md section 4). -/
def Obligations.TransferTimeAndFrameRate : Prop :=
  ∀ (cfg : Config) (px : Frame), cfg.wf = true → px.length = cfg.N →
    cfg.busTime (wave (encodeFn cfg px)).length = cfg.transferTime ∧ cfg.transferTime * cfg.frameRateBound = 1
end

