-- ==== Sys2Proof/Laws/ConfigCheck.lean ====
section
/-! SUPPORT. What the checks of 10_state.md R33 give later proofs: the checks one by one, the shape of a legal pattern
and the order of a gamma table in use. -/

namespace Sys2Proof.Machine

theorem wf_iff (cfg : Config) :
    cfg.wf = true ↔
      cfg.wf1 = true ∧ cfg.wf2 = true ∧ cfg.wf3 = true ∧ cfg.wf4 = true ∧ cfg.wf5 = true ∧ cfg.wf6 = true ∧
        cfg.wf7 = true ∧ cfg.wf8 = true ∧ cfg.wf9 = true ∧ cfg.wf10 = true ∧ cfg.wf11 = true ∧ cfg.wf12 = true := by
  simp only [Config.wf, Bool.and_eq_true, and_assoc]

theorem LB_lt {cfg : Config} (h : cfg.wf = true) : cfg.LB < 2 ^ 32 := by
  obtain ⟨_, _, _, _, _, _, _, _, _, _, h11, _⟩ := (wf_iff cfg).1 h
  simp only [Config.wf11, decide_eq_true_eq] at h11
  omega

theorem N_le (cfg : Config) : cfg.N ≤ 65535 := by
  have := cfg.stripLen.isLt
  unfold Config.N; omega

/-! ### Patterns -/

/-- A pattern whose low `m` bits are 0: no high run, all low. -/
theorem patternBits_of_low (p : BitVec 64) (m : Nat) (h : ∀ i, i < m → p.getLsbD i = false) :
    Config.leadRun p m = 0 ∧ patternBits p m = List.replicate m false := by
  induction m with
  | zero => exact ⟨rfl, rfl⟩
  | succ m ih =>
    have := ih fun i hi => h i (by omega)
    simp [Config.leadRun, patternBits, h m (by omega), this.2, List.replicate_succ]

/-- A pattern of `k` high bits above `m` low bits: its high run is `k`, and its bits are one pulse. -/
theorem patternBits_of_pulse (p : BitVec 64) (k m : Nat) (h : ∀ i, i < m + k → p.getLsbD i = decide (m ≤ i)) :
    Config.leadRun p (m + k) = k ∧
      patternBits p (m + k) = List.replicate k true ++ List.replicate m false := by
  induction k with
  | zero =>
    simpa using patternBits_of_low p m fun i hi => by rw [h i (by omega)]; simp; omega
  | succ k ih =>
    have hk := ih fun i hi => h i (by omega)
    have ht : p.getLsbD (m + k) = true := by rw [h _ (by omega)]; simp
    rw [← Nat.add_assoc, Config.leadRun, patternBits]
    simp only [ht, if_true, hk.1, hk.2, List.replicate_succ, List.cons_append, and_self]

/-- A pattern that passes WF4 or WF5 has a high run of 1 to `b - 1` bits, and its bits are one pulse. -/
theorem patternBits_of_oneRun {p : BitVec 64} {b : Nat} (h : Config.oneRun b p = true) :
    1 ≤ Config.leadRun p b ∧ Config.leadRun p b < b ∧
      patternBits p b =
        List.replicate (Config.leadRun p b) true ++ List.replicate (b - Config.leadRun p b) false := by
  simp only [Config.oneRun, List.any_eq_true, List.mem_range, Bool.and_eq_true, decide_eq_true_eq, beq_iff_eq] at h
  obtain ⟨k, hk, h1, he⟩ := h
  have hp := patternBits_of_pulse p k (b - k) fun i hi => by
    rw [← BitVec.testBit_toNat, he, Nat.testBit_mul_two_pow, Nat.testBit_two_pow_sub_one]
    by_cases c : b - k ≤ i <;> simp [c]
    omega
  rw [show b - k + k = b by omega] at hp
  rw [hp.1]
  exact ⟨h1, hk, hp.2⟩

/-! ### Gamma -/

/-- A table that passes WF9 is non-decreasing. -/
theorem gammaAt_mono {cfg : Config} (he : cfg.gammaEn = true) (h9 : cfg.wf9 = true) {u v : Byte} (huv : u ≤ v) :
    cfg.gammaAt u ≤ cfg.gammaAt v := by
  simp only [Config.wf9, he, Bool.not_true, Bool.false_or, List.all_eq_true, List.mem_range, decide_eq_true_eq] at h9
  have key : ∀ d a : Nat, a + d ≤ 255 →
      cfg.gammaAt (BitVec.ofNat 8 a) ≤ cfg.gammaAt (BitVec.ofNat 8 (a + d)) := by
    intro d
    induction d with
    | zero => intro a _; exact BitVec.le_refl _
    | succ d ih => intro a ha; exact BitVec.le_trans (ih a (by omega)) (h9 (a + d) (by omega))
  have hle : u.toNat ≤ v.toNat := huv
  have := key (v.toNat - u.toNat) u.toNat (by have := v.isLt; omega)
  rw [show u.toNat + (v.toNat - u.toNat) = v.toNat by omega] at this
  simpa using this

end Sys2Proof.Machine
end

