-- ==== Sys2Proof/Laws/Datapath.lean ====
section
/-! SUPPORT. Lengths, positions and round trips of the datapath's stages (40_datapath.md R80 to R90) and of the
waveform (42_channel_wire.md R114). -/

namespace Sys2Proof.Machine

/-! ### Operand stages -/

theorem clamp_of_neg {v : Int} (h : v < 0) : clamp v = 0 := by simp [clamp, h]

theorem clamp_of_large {v : Int} (h : 255 < v) : clamp v = 255 := by
  have : ¬ v < 0 := by omega
  simp [clamp, h, this]

theorem clamp_toNat {v : Int} (h0 : 0 ≤ v) (h1 : v ≤ 255) : ((clamp v).toNat : Int) = v := by
  have a : ¬ v < 0 := by omega
  have b : ¬ 255 < v := by omega
  simp only [clamp, a, b, if_false, BitVec.toNat_ofInt]
  omega

@[simp] theorem wireBytes_length (cfg : Config) (p : Pixel) : (wireBytes cfg p).length = 3 := rfl

/-! ### Bits and bytes -/

@[simp] theorem bits_length (u : Byte) : (bits u).length = 8 := rfl

@[simp] theorem bits_byteOfBits (b7 b6 b5 b4 b3 b2 b1 b0 : Bool) :
    bits (byteOfBits b7 b6 b5 b4 b3 b2 b1 b0) = [b7, b6, b5, b4, b3, b2, b1, b0] := by
  decide +revert

theorem byteOfBits_bits (u : Byte) :
    byteOfBits (u.getLsbD 7) (u.getLsbD 6) (u.getLsbD 5) (u.getLsbD 4) (u.getLsbD 3) (u.getLsbD 2) (u.getLsbD 1)
      (u.getLsbD 0) = u := by
  decide +revert

theorem bits_getElem? (u : Byte) {i : Nat} (h : i < 8) : (bits u)[i]? = some (u.getLsbD (7 - i)) := by
  have : i = 0 ∨ i = 1 ∨ i = 2 ∨ i = 3 ∨ i = 4 ∨ i = 5 ∨ i = 6 ∨ i = 7 := by omega
  rcases this with rfl | rfl | rfl | rfl | rfl | rfl | rfl | rfl <;> rfl

/-! ### Groups -/

@[simp] theorem patternBits_length (p : BitVec 64) (b : Nat) : (patternBits p b).length = b := by
  induction b with
  | zero => rfl
  | succ b ih => simp [patternBits, ih]

theorem patternBits_getElem? (p : BitVec 64) (b : Nat) {i : Nat} (h : i < b) :
    (patternBits p b)[i]? = some (p.getLsbD (b - 1 - i)) := by
  induction b generalizing i with
  | zero => omega
  | succ b ih =>
    cases i with
    | zero => simp [patternBits]
    | succ i =>
      have : b - (i + 1) = b - 1 - i := by omega
      simp [patternBits, ih (by omega : i < b), this]

@[simp] theorem group_length (cfg : Config) (t : Bool) : (group cfg t).length = cfg.B := by simp [group]

/-- Expanding every element of a list into `n` elements multiplies its length by `n`. -/
theorem flatMap_length_of_const {α β : Type} (f : α → List β) (n : Nat) (h : ∀ a, (f a).length = n) (l : List α) :
    (l.flatMap f).length = n * l.length := by
  induction l with
  | nil => simp
  | cons a l ih => simp [h, ih, Nat.mul_succ, Nat.add_comm]

/-- Element `n*k + j` of such an expansion is element `j` of the expansion of element `k`. -/
theorem flatMap_getElem?_of_const {α β : Type} (f : α → List β) (n : Nat) (h : ∀ a, (f a).length = n) (l : List α)
    {k j : Nat} {a : α} (hk : l[k]? = some a) (hj : j < n) : (l.flatMap f)[n * k + j]? = (f a)[j]? := by
  induction l generalizing k with
  | nil => simp at hk
  | cons b l ih =>
    cases k with
    | zero =>
      simp only [List.getElem?_cons_zero, Option.some.injEq] at hk
      subst hk
      simp [List.getElem?_append_left, h, hj]
    | succ k =>
      have hlt : (f b).length ≤ n * (k + 1) + j := by rw [h, Nat.mul_succ]; omega
      have he : n * (k + 1) + j - (f b).length = n * k + j := by rw [h, Nat.mul_succ]; omega
      simp only [List.flatMap_cons, List.getElem?_append_right hlt, he]
      exact ih (by simpa using hk)

@[simp] theorem xb_length (cfg : Config) (u : Byte) : (xb cfg u).length = 8 * cfg.B := by
  simp [xb, flatMap_length_of_const _ cfg.B (group_length cfg), Nat.mul_comm]

theorem wireFrame_length (cfg : Config) (px : Frame) : (px.flatMap (wireBytes cfg)).length = 3 * px.length :=
  flatMap_length_of_const _ 3 (wireBytes_length cfg) px

@[simp] theorem serial_length (cfg : Config) (px : Frame) : (serial cfg px).length = 8 * (3 * cfg.B * px.length) := by
  rw [serial, flatMap_length_of_const _ (8 * cfg.B) (xb_length cfg), wireFrame_length]
  rw [Nat.mul_assoc, ← Nat.mul_assoc cfg.B, Nat.mul_comm cfg.B 3]

/-! ### Packing and the waveform -/

@[simp] theorem wave_nil : wave [] = [] := rfl

@[simp] theorem wave_cons (b : Byte) (bs : List Byte) : wave (b :: bs) = bits b ++ wave bs := rfl

@[simp] theorem wave_append (xs ys : List Byte) : wave (xs ++ ys) = wave xs ++ wave ys := by simp [wave]

@[simp] theorem wave_length (bs : List Byte) : (wave bs).length = 8 * bs.length :=
  flatMap_length_of_const _ 8 bits_length bs

theorem wave_replicate_zero (n : Nat) : wave (List.replicate n 0) = List.replicate (8 * n) false := by
  induction n with
  | zero => rfl
  | succ n ih =>
    rw [List.replicate_succ, wave_cons, ih, show bits 0 = List.replicate 8 false from rfl,
      List.replicate_append_replicate, Nat.mul_succ, Nat.add_comm]

@[simp] theorem pack_bits_append (u : Byte) (l : List Bool) : pack (bits u ++ l) = u :: pack l := by
  simp only [bits, List.cons_append, List.nil_append, pack, byteOfBits_bits]

/-- A byte list comes back from its waveform. -/
@[simp] theorem pack_wave (bs : List Byte) : pack (wave bs) = bs := by
  induction bs with
  | nil => rfl
  | cons b bs ih => rw [wave_cons, pack_bits_append, ih]

/-- A list of `8*(n+1)` bits begins with the bits of a byte. -/
theorem eq_bits_append {l : List Bool} {n : Nat} (h : l.length = 8 * (n + 1)) :
    ∃ u m, l = bits u ++ m ∧ m.length = 8 * n := by
  match l, h with
  | b7 :: b6 :: b5 :: b4 :: b3 :: b2 :: b1 :: b0 :: m, h =>
    exact ⟨byteOfBits b7 b6 b5 b4 b3 b2 b1 b0, m, by simp, by simp at h; omega⟩

/-- The waveform of packed bits is those bits. -/
theorem wave_pack {l : List Bool} {n : Nat} (h : l.length = 8 * n) : wave (pack l) = l := by
  induction n generalizing l with
  | zero => obtain rfl := List.eq_nil_of_length_eq_zero h; rfl
  | succ n ih =>
    obtain ⟨u, m, rfl, hm⟩ := eq_bits_append h
    rw [pack_bits_append, wave_cons, ih hm]

@[simp] theorem wave_pack_serial (cfg : Config) (px : Frame) : wave (pack (serial cfg px)) = serial cfg px :=
  wave_pack (serial_length cfg px)

theorem pack_length {l : List Bool} {n : Nat} (h : l.length = 8 * n) : (pack l).length = n := by
  have := congrArg List.length (wave_pack h)
  rw [wave_length] at this
  omega

theorem pack_append {l : List Bool} {n : Nat} (h : l.length = 8 * n) (m : List Bool) :
    pack (l ++ m) = pack l ++ pack m := by
  induction n generalizing l with
  | zero => obtain rfl := List.eq_nil_of_length_eq_zero h; rfl
  | succ n ih =>
    obtain ⟨u, r, rfl, hr⟩ := eq_bits_append h
    simp [ih hr]

@[simp] theorem pack_serial_length (cfg : Config) (px : Frame) :
    (pack (serial cfg px)).length = 3 * cfg.B * px.length := pack_length (serial_length cfg px)

/-- Bit `7 - i` of byte `j` is bus bit `8*j + i` of the waveform. -/
theorem getLsbD_of_wave {bs : List Byte} {j i : Nat} {u : Byte} (hj : bs[j]? = some u) (hi : i < 8) :
    (wave bs)[8 * j + i]? = some (u.getLsbD (7 - i)) := by
  rw [wave, flatMap_getElem?_of_const _ 8 bits_length bs hj hi, bits_getElem? u hi]

/-! ### The encode buffer -/

/-- What a transfer of an encode buffer puts on the wire: the frame's bus bits, then the padding's. -/
theorem wave_encodeFn (cfg : Config) (px : Frame) :
    wave (encodeFn cfg px) = serial cfg px ++ List.replicate (8 * cfg.R) false := by
  rw [encodeFn, wave_append, wave_pack_serial, pad, wave_replicate_zero]

/-- The frame's bus bits, protocol bit by protocol bit. -/
theorem serial_eq_groups (cfg : Config) (px : Frame) :
    serial cfg px = ((px.flatMap (wireBytes cfg)).flatMap bits).flatMap (group cfg) := by
  simp only [serial, List.flatMap_assoc]
  rfl

theorem protocolBits_length (cfg : Config) (px : Frame) :
    ((px.flatMap (wireBytes cfg)).flatMap bits).length = 24 * px.length := by
  rw [flatMap_length_of_const _ 8 bits_length, wireFrame_length]; omega

theorem serial_append (cfg : Config) (xs ys : Frame) : serial cfg (xs ++ ys) = serial cfg xs ++ serial cfg ys := by
  simp [serial]

end Sys2Proof.Machine
end

