-- ==== Sys2Proof/Laws/Decode.lean ====
section
/-! SUPPORT. The header's fields, the payload's words and the decoder's three answers (30_encoding.md R65 to R71). -/

namespace Sys2Proof

/-! ### Headers -/

@[simp] theorem headerOp_header (op : Byte) (L : Nat) : headerOp (header op L) = op := by
  unfold headerOp header
  ext i hi
  simp only [BitVec.getElem_extractLsb', BitVec.getLsbD_append]
  simp [show ¬ 24 + i < 16 by omega, show ¬ 24 + i - 16 < 8 by omega, show 24 + i - 16 - 8 = i by omega,
    BitVec.getLsbD_eq_getElem hi]

@[simp] theorem headerRsv_header (op : Byte) (L : Nat) : headerRsv (header op L) = 0 := by
  unfold headerRsv header
  ext i hi
  simp only [BitVec.getElem_extractLsb', BitVec.getLsbD_append]
  simp only [show ¬ 16 + i < 16 by omega, show 16 + i - 16 < 8 by omega, if_true, if_false]
  simp

theorem headerLen_header (op : Byte) {L : Nat} (h : L ≤ 65535) : headerLen (header op L) = L := by
  have : (header op L).extractLsb' 0 16 = BitVec.ofNat 16 L := by
    unfold header
    ext i hi
    simp only [BitVec.getElem_extractLsb', BitVec.getLsbD_append]
    simp only [Nat.zero_add, hi, ← BitVec.getLsbD_eq_getElem, if_true]
  rw [headerLen, this, BitVec.toNat_ofNat]
  omega

theorem legal_header (i : Instr) (L : Nat) : legal (header (opcode i) L) = true := by
  cases i <;> simp [legal, opcode]

@[simp] theorem instrOf_opcode (i : Instr) : instrOf (opcode i) i.frame = i := by
  cases i <;> rfl

/-- A legal header's opcode is the one of the command it stands for. -/
theorem opcode_instrOf {h : Word} (hl : legal h = true) (px : Frame) : opcode (instrOf (headerOp h) px) = headerOp h := by
  simp only [legal, Bool.and_eq_true, Bool.or_eq_true, beq_iff_eq] at hl
  rcases hl.1 with e | e <;> simp [e, instrOf, opcode, opEncode, opTransmit]

@[simp] theorem frame_instrOf (op : Byte) (px : Frame) : (instrOf op px).frame = px := by
  unfold instrOf; split <;> rfl

/-- A legal header is built back from its opcode and its length. -/
theorem header_of_legal {h : Word} (hl : legal h = true) : header (headerOp h) (headerLen h) = h := by
  simp only [legal, Bool.and_eq_true, beq_iff_eq] at hl
  rw [show header (headerOp h) (headerLen h) = headerOp h ++ headerRsv h ++ BitVec.ofNat 16 (headerLen h) by
    rw [header, hl.2]]
  unfold headerOp headerRsv headerLen
  rw [BitVec.ofNat_toNat]
  ext i hi
  simp only [BitVec.getElem_append, BitVec.setWidth_eq, BitVec.getElem_extractLsb']
  split
  · simp [BitVec.getLsbD_eq_getElem hi]
  · split
    · simp [show 16 + (i - 16) = i by omega, BitVec.getLsbD_eq_getElem hi]
    · simp [show 24 + (i - 16 - 8) = i by omega, BitVec.getLsbD_eq_getElem hi]

/-! ### Framing -/

/-- The framing of a stream goes on where a part of it ends. -/
theorem owed_append (n : Nat) (xs ys : List Word) : owed n (xs ++ ys) = owed (owed n xs) ys := by
  induction xs generalizing n with
  | nil => simp [owed]
  | cons w xs ih => cases n <;> simp [owed, ih]

theorem headersOf_append (n : Nat) (xs ys : List Word) :
    headersOf n (xs ++ ys) = headersOf n xs ++ headersOf (owed n xs) ys := by
  induction xs generalizing n with
  | nil => simp [owed, headersOf]
  | cons w xs ih => cases n <;> simp [owed, headersOf, ih]

/-- Payload words are no headers. -/
theorem headersOf_drop {n : Nat} {ws : List Word} (h : n ≤ ws.length) : headersOf n ws = headersOf 0 (ws.drop n) := by
  induction n generalizing ws with
  | zero => rfl
  | succ n ih =>
    cases ws with
    | nil => simp at h
    | cons w ws => simp only [headersOf, List.drop_succ_cons]; exact ih (by simpa using h)

/-- A framed stream owes no payload after a whole command. -/
theorem owed_drop {n : Nat} {ws : List Word} (h : n ≤ ws.length) : owed n ws = owed 0 (ws.drop n) := by
  induction n generalizing ws with
  | zero => rfl
  | succ n ih =>
    cases ws with
    | nil => simp at h
    | cons w ws => simp only [owed, List.drop_succ_cons]; exact ih (by simpa using h)

/-! ### Payloads -/

theorem hasWords_iff (n : Nat) (ws : List Word) : hasWords n ws = true ↔ n ≤ ws.length := by
  induction n generalizing ws with
  | zero => simp [hasWords]
  | succ n ih => cases ws <;> simp [hasWords, ih]

theorem toInt_ofInt_of_channelInRange {v : Int} (h : channelInRange v = true) : (BitVec.ofInt 32 v).toInt = v := by
  simp only [channelInRange, decide_eq_true_eq] at h
  rw [BitVec.toInt_ofInt, Int.bmod_eq_of_le] <;> omega

theorem channelInRange_toInt (w : Word) : channelInRange w.toInt = true := by
  have h1 := BitVec.toInt_lt (x := w)
  have h2 := BitVec.le_toInt (x := w)
  simp only [channelInRange, decide_eq_true_eq]
  simp at h1 h2 ⊢
  omega

theorem pixelWords_payload_length (px : Frame) : (px.flatMap pixelWords).length = 3 * px.length := by
  induction px with
  | nil => rfl
  | cons p px ih => simp only [List.flatMap_cons, List.length_append, ih, pixelWords, List.length_cons, List.length_nil]; omega

theorem pixelsOf_payload {px : Frame} (h : px.all Pixel.wf = true) (rest : List Word) :
    pixelsOf px.length (px.flatMap pixelWords ++ rest) = px := by
  induction px with
  | nil => rfl
  | cons p px ih =>
    simp only [List.all_cons, Bool.and_eq_true, Pixel.wf] at h
    obtain ⟨⟨⟨hr, hg⟩, hb⟩, hpx⟩ := h
    simp only [List.flatMap_cons, pixelWords, List.cons_append, List.nil_append, List.length_cons, pixelsOf,
      toInt_ofInt_of_channelInRange, hr, hg, hb, ih hpx]

theorem pixelsOf_length {L : Nat} {ws : List Word} (h : 3 * L ≤ ws.length) : (pixelsOf L ws).length = L := by
  induction L generalizing ws with
  | zero => rfl
  | succ L ih =>
    match ws, h with
    | r :: g :: b :: ws, h => simp [pixelsOf, ih (ws := ws) (by simp at h; omega)]

theorem pixelsOf_wf (L : Nat) (ws : List Word) : (pixelsOf L ws).all Pixel.wf = true := by
  induction L generalizing ws with
  | zero => rfl
  | succ L ih =>
    match ws with
    | [] | [_] | [_, _] => rfl
    | r :: g :: b :: ws => simp [pixelsOf, Pixel.wf, channelInRange_toInt, ih]

/-- Pixel `p` is made of payload words `3*p`, `3*p + 1` and `3*p + 2`. -/
theorem pixelsOf_getElem? {L : Nat} {ws : List Word} (h : 3 * L ≤ ws.length) {p : Nat} (hp : p < L) :
    (pixelsOf L ws)[p]? =
      some ⟨(ws.getD (3 * p) 0).toInt, (ws.getD (3 * p + 1) 0).toInt, (ws.getD (3 * p + 2) 0).toInt⟩ := by
  induction L generalizing ws p with
  | zero => omega
  | succ L ih =>
    match ws, h with
    | r :: g :: b :: ws, h =>
      cases p with
      | zero => rfl
      | succ p =>
        simp only [pixelsOf, List.getElem?_cons_succ]
        rw [ih (by simp at h; omega) (by omega)]
        rfl

theorem payload_pixelsOf {L : Nat} {ws : List Word} (h : 3 * L ≤ ws.length) :
    (pixelsOf L ws).flatMap pixelWords = ws.take (3 * L) := by
  induction L generalizing ws with
  | zero => rfl
  | succ L ih =>
    match ws, h with
    | r :: g :: b :: ws, h =>
      simp [pixelsOf, pixelWords, Nat.mul_succ, ih (ws := ws) (by simp at h; omega)]

/-! ### The decoder's answers -/

theorem decode_illegal {h : Word} (hl : legal h = false) (ws : List Word) : decode (h :: ws) = .illegal h ws := by
  simp [decode, hl]

theorem decode_command {h : Word} {ws : List Word} (hl : legal h = true) (hn : 3 * headerLen h ≤ ws.length) :
    decode (h :: ws) =
      .command (instrOf (headerOp h) (pixelsOf (headerLen h) ws)) (ws.drop (3 * headerLen h)) := by
  simp [decode, hl, (hasWords_iff _ _).2 hn]

theorem decode_held {h : Word} {ws : List Word} (hl : legal h = true) (hn : ws.length < 3 * headerLen h) :
    decode (h :: ws) = .held := by
  have : hasWords (3 * headerLen h) ws = false := by
    rw [Bool.eq_false_iff, ne_eq, hasWords_iff]; omega
  simp [decode, hl, this]

/-- The one way the decoder answers a command. -/
theorem decode_eq_command {ws rest : List Word} {i : Instr} (h : decode ws = .command i rest) :
    ∃ hd pl, ws = hd :: pl ∧ legal hd = true ∧ 3 * headerLen hd ≤ pl.length ∧
      i = instrOf (headerOp hd) (pixelsOf (headerLen hd) pl) ∧ rest = pl.drop (3 * headerLen hd) := by
  cases ws with
  | nil => cases h
  | cons hd pl =>
    cases hl : legal hd with
    | false => rw [decode_illegal hl] at h; cases h
    | true =>
      by_cases hn : 3 * headerLen hd ≤ pl.length
      · rw [decode_command hl hn] at h
        injection h with h1 h2
        exact ⟨hd, pl, rfl, hl, hn, h1.symm, h2.symm⟩
      · rw [decode_held hl (by omega)] at h; cases h

/-- An illegal header is read where it stands. -/
theorem decode_eq_illegal {ws rest : List Word} {h : Word} (hd : decode ws = .illegal h rest) :
    ws = h :: rest ∧ legal h = false := by
  cases ws with
  | nil => cases hd
  | cons w pl =>
    cases hl : legal w with
    | false => rw [decode_illegal hl] at hd; injection hd with h1 h2; exact ⟨by rw [h1, h2], h1 ▸ hl⟩
    | true =>
      by_cases hn : 3 * headerLen w ≤ pl.length
      · rw [decode_command hl hn] at hd; cases hd
      · rw [decode_held hl (by omega)] at hd; cases hd

/-- The headers of a stream that begins with a command are its header and those of the rest. -/
theorem headersOf_command {ws rest : List Word} {i : Instr} (h : decode ws = .command i rest) :
    ∃ hd, headersOf 0 ws = hd :: headersOf 0 rest ∧ (startsTransmit hd = true ↔ ∃ px, i = .transmit px) := by
  obtain ⟨hd, pl, rfl, hl, hn, rfl, rfl⟩ := decode_eq_command h
  refine ⟨hd, ?_, ?_⟩
  · rw [headersOf, payloadLen, if_pos hl, headersOf_drop hn]
  · simp only [startsTransmit, hl, Bool.true_and, beq_iff_eq]
    simp only [legal, Bool.and_eq_true, Bool.or_eq_true, beq_iff_eq] at hl
    rcases hl.1 with e | e <;> simp [e, instrOf, opEncode, opTransmit]

/-- The headers of a stream that begins with an illegal header are it and those of the rest. -/
theorem headersOf_illegal {ws rest : List Word} {h : Word} (hd : decode ws = .illegal h rest) :
    headersOf 0 ws = h :: headersOf 0 rest := by
  obtain ⟨rfl, hl⟩ := decode_eq_illegal hd
  rw [headersOf, payloadLen, hl]; rfl

end Sys2Proof
end

