-- ==== Sys2Proof/Laws/Flags.lean ====
section
/-! SUPPORT. The fields of a response header (30_encoding.md R72) and the range of the channel's outcome
(42_channel_wire.md R110). -/

namespace Sys2Proof.Machine

theorem respHeader_ope (ope : Byte) (st : Status) : (respHeader ope st).extractLsb' 24 8 = ope := by
  unfold respHeader
  ext i hi
  simp only [BitVec.getElem_extractLsb', BitVec.getLsbD_append]
  simp [show ¬ 24 + i < 8 by omega, show ¬ 24 + i - 8 < 16 by omega, show 24 + i - 8 - 16 = i by omega,
    BitVec.getLsbD_eq_getElem hi]

theorem respHeader_status (ope : Byte) (st : Status) : (respHeader ope st).extractLsb' 0 8 = statusCode st := by
  unfold respHeader
  ext i hi
  simp only [BitVec.getElem_extractLsb', BitVec.getLsbD_append]
  simp [hi]

theorem respHeader_zero (ope : Byte) (st : Status) : (respHeader ope st).extractLsb' 8 16 = 0 := by
  unfold respHeader
  ext i hi
  simp only [BitVec.getElem_extractLsb', BitVec.getLsbD_append]
  simp [show ¬ 8 + i < 8 by omega, hi]

/-- `within` answers an outcome R110 admits. -/
theorem admits_within (o : ChanOutcome) (buf : List Byte) : admits (within buf.length o) buf = true := by
  cases o with
  | ok => rfl
  | fail k =>
    simp only [within, admits, decide_eq_true_eq]
    exact Nat.le_of_lt_succ (Nat.mod_lt k (Nat.succ_pos buf.length))

/-- `within` keeps every outcome R110 admits. -/
theorem within_of_admits {o : ChanOutcome} {buf : List Byte} (h : admits o buf = true) : within buf.length o = o := by
  cases o with
  | ok => rfl
  | fail k =>
    simp only [admits, decide_eq_true_eq] at h
    simp [within, Nat.mod_eq_of_lt (Nat.lt_succ_of_le h)]

/-- Whatever is drawn is an outcome R110 admits. -/
theorem admits_drawn (buf : List Byte) (s : State) : admits (drawn buf s) buf = true := by
  unfold drawn; split <;> exact admits_within _ _

end Sys2Proof.Machine
end

