-- ==== Sys2Proof/Laws/State.lean ====
section
/-! SUPPORT. What each named update does to each field of the state: one lemma a field, true by `rfl`, so that no
proof unfolds a record update. -/

namespace Sys2Proof.Machine

@[simp] theorem consume_cfg (rest : List Word) (s : State) : (consume rest s).cfg = s.cfg := rfl
@[simp] theorem consume_phase (rest : List Word) (s : State) : (consume rest s).phase = s.phase := rfl
@[simp] theorem consume_reqQ (rest : List Word) (s : State) : (consume rest s).reqQ = rest := rfl
@[simp] theorem consume_respQ (rest : List Word) (s : State) : (consume rest s).respQ = s.respQ := rfl
@[simp] theorem consume_chanLog (rest : List Word) (s : State) : (consume rest s).chanLog = s.chanLog := rfl
@[simp] theorem consume_line (rest : List Word) (s : State) : (consume rest s).line = s.line := rfl
@[simp] theorem consume_refused (rest : List Word) (s : State) : (consume rest s).refused = s.refused := rfl
@[simp] theorem consume_host (rest : List Word) (s : State) : (consume rest s).host = s.host := rfl
@[simp] theorem consume_taken (rest : List Word) (s : State) : (consume rest s).taken = s.taken := rfl
@[simp] theorem consume_lastCmd (rest : List Word) (s : State) : (consume rest s).lastCmd = s.lastCmd := rfl
@[simp] theorem consume_lastAlone (rest : List Word) (s : State) : (consume rest s).lastAlone = s.lastAlone := rfl
@[simp] theorem consume_hadFailure (rest : List Word) (s : State) : (consume rest s).hadFailure = s.hadFailure := rfl
@[simp] theorem consume_link (rest : List Word) (s : State) : (consume rest s).link = s.link := rfl
@[simp] theorem consume_chan (rest : List Word) (s : State) : (consume rest s).chan = s.chan := rfl
@[simp] theorem consume_draws (rest : List Word) (s : State) : (consume rest s).draws = s.draws := rfl
@[simp] theorem consume_xfer (rest : List Word) (s : State) : (consume rest s).xfer = s.xfer := rfl
@[simp] theorem consume_wire (rest : List Word) (s : State) : (consume rest s).wire = s.wire := rfl
@[simp] theorem consume_past (rest : List Word) (s : State) : (consume rest s).past = s.past := rfl

@[simp] theorem respWrite_cfg (ws : List Word) (s : State) : (respWrite ws s).cfg = s.cfg := rfl
@[simp] theorem respWrite_phase (ws : List Word) (s : State) : (respWrite ws s).phase = s.phase := rfl
@[simp] theorem respWrite_reqQ (ws : List Word) (s : State) : (respWrite ws s).reqQ = s.reqQ := rfl
@[simp] theorem respWrite_respQ (ws : List Word) (s : State) : (respWrite ws s).respQ = s.respQ ++ ws := rfl
@[simp] theorem respWrite_chanLog (ws : List Word) (s : State) : (respWrite ws s).chanLog = s.chanLog := rfl
@[simp] theorem respWrite_line (ws : List Word) (s : State) : (respWrite ws s).line = s.line := rfl
@[simp] theorem respWrite_refused (ws : List Word) (s : State) : (respWrite ws s).refused = s.refused := rfl
@[simp] theorem respWrite_host (ws : List Word) (s : State) : (respWrite ws s).host = s.host := rfl
@[simp] theorem respWrite_taken (ws : List Word) (s : State) : (respWrite ws s).taken = s.taken := rfl
@[simp] theorem respWrite_lastCmd (ws : List Word) (s : State) : (respWrite ws s).lastCmd = s.lastCmd := rfl
@[simp] theorem respWrite_lastAlone (ws : List Word) (s : State) : (respWrite ws s).lastAlone = s.lastAlone := rfl
@[simp] theorem respWrite_hadFailure (ws : List Word) (s : State) : (respWrite ws s).hadFailure = s.hadFailure := rfl
@[simp] theorem respWrite_link (ws : List Word) (s : State) : (respWrite ws s).link = s.link := rfl
@[simp] theorem respWrite_chan (ws : List Word) (s : State) : (respWrite ws s).chan = s.chan := rfl
@[simp] theorem respWrite_draws (ws : List Word) (s : State) : (respWrite ws s).draws = s.draws := rfl
@[simp] theorem respWrite_xfer (ws : List Word) (s : State) : (respWrite ws s).xfer = s.xfer := rfl
@[simp] theorem respWrite_wire (ws : List Word) (s : State) : (respWrite ws s).wire = s.wire := rfl
@[simp] theorem respWrite_past (ws : List Word) (s : State) : (respWrite ws s).past = s.past := rfl

@[simp] theorem raiseStatus_cfg (ope : Byte) (st : Status) (s : State) : (raiseStatus ope st s).cfg = s.cfg := rfl
@[simp] theorem raiseStatus_phase (ope : Byte) (st : Status) (s : State) : (raiseStatus ope st s).phase = s.phase := rfl
@[simp] theorem raiseStatus_reqQ (ope : Byte) (st : Status) (s : State) : (raiseStatus ope st s).reqQ = s.reqQ := rfl
@[simp] theorem raiseStatus_respQ (ope : Byte) (st : Status) (s : State) : (raiseStatus ope st s).respQ = s.respQ ++ [respHeader ope st] := rfl
@[simp] theorem raiseStatus_chanLog (ope : Byte) (st : Status) (s : State) : (raiseStatus ope st s).chanLog = s.chanLog := rfl
@[simp] theorem raiseStatus_line (ope : Byte) (st : Status) (s : State) : (raiseStatus ope st s).line = s.line := rfl
@[simp] theorem raiseStatus_refused (ope : Byte) (st : Status) (s : State) : (raiseStatus ope st s).refused = s.refused := rfl
@[simp] theorem raiseStatus_host (ope : Byte) (st : Status) (s : State) : (raiseStatus ope st s).host = s.host := rfl
@[simp] theorem raiseStatus_taken (ope : Byte) (st : Status) (s : State) : (raiseStatus ope st s).taken = s.taken := rfl
@[simp] theorem raiseStatus_lastCmd (ope : Byte) (st : Status) (s : State) : (raiseStatus ope st s).lastCmd = s.lastCmd := rfl
@[simp] theorem raiseStatus_lastAlone (ope : Byte) (st : Status) (s : State) : (raiseStatus ope st s).lastAlone = s.lastAlone := rfl
@[simp] theorem raiseStatus_hadFailure (ope : Byte) (st : Status) (s : State) : (raiseStatus ope st s).hadFailure = s.hadFailure := rfl
@[simp] theorem raiseStatus_link (ope : Byte) (st : Status) (s : State) : (raiseStatus ope st s).link = s.link := rfl
@[simp] theorem raiseStatus_chan (ope : Byte) (st : Status) (s : State) : (raiseStatus ope st s).chan = s.chan := rfl
@[simp] theorem raiseStatus_draws (ope : Byte) (st : Status) (s : State) : (raiseStatus ope st s).draws = s.draws := rfl
@[simp] theorem raiseStatus_xfer (ope : Byte) (st : Status) (s : State) : (raiseStatus ope st s).xfer = s.xfer := rfl
@[simp] theorem raiseStatus_wire (ope : Byte) (st : Status) (s : State) : (raiseStatus ope st s).wire = s.wire := rfl
@[simp] theorem raiseStatus_past (ope : Byte) (st : Status) (s : State) : (raiseStatus ope st s).past = s.past := rfl

@[simp] theorem setPhase_cfg (p : Phase) (s : State) : (setPhase p s).cfg = s.cfg := rfl
@[simp] theorem setPhase_phase (p : Phase) (s : State) : (setPhase p s).phase = p := rfl
@[simp] theorem setPhase_reqQ (p : Phase) (s : State) : (setPhase p s).reqQ = s.reqQ := rfl
@[simp] theorem setPhase_respQ (p : Phase) (s : State) : (setPhase p s).respQ = s.respQ := rfl
@[simp] theorem setPhase_chanLog (p : Phase) (s : State) : (setPhase p s).chanLog = s.chanLog := rfl
@[simp] theorem setPhase_line (p : Phase) (s : State) : (setPhase p s).line = s.line := rfl
@[simp] theorem setPhase_refused (p : Phase) (s : State) : (setPhase p s).refused = s.refused := rfl
@[simp] theorem setPhase_host (p : Phase) (s : State) : (setPhase p s).host = s.host := rfl
@[simp] theorem setPhase_taken (p : Phase) (s : State) : (setPhase p s).taken = s.taken := rfl
@[simp] theorem setPhase_lastCmd (p : Phase) (s : State) : (setPhase p s).lastCmd = s.lastCmd := rfl
@[simp] theorem setPhase_lastAlone (p : Phase) (s : State) : (setPhase p s).lastAlone = s.lastAlone := rfl
@[simp] theorem setPhase_hadFailure (p : Phase) (s : State) : (setPhase p s).hadFailure = s.hadFailure := rfl
@[simp] theorem setPhase_link (p : Phase) (s : State) : (setPhase p s).link = s.link := rfl
@[simp] theorem setPhase_chan (p : Phase) (s : State) : (setPhase p s).chan = s.chan := rfl
@[simp] theorem setPhase_draws (p : Phase) (s : State) : (setPhase p s).draws = s.draws := rfl
@[simp] theorem setPhase_xfer (p : Phase) (s : State) : (setPhase p s).xfer = s.xfer := rfl
@[simp] theorem setPhase_wire (p : Phase) (s : State) : (setPhase p s).wire = s.wire := rfl
@[simp] theorem setPhase_past (p : Phase) (s : State) : (setPhase p s).past = s.past := rfl

@[simp] theorem logEvent_cfg (e : ChanEvent) (s : State) : (logEvent e s).cfg = s.cfg := rfl
@[simp] theorem logEvent_phase (e : ChanEvent) (s : State) : (logEvent e s).phase = s.phase := rfl
@[simp] theorem logEvent_reqQ (e : ChanEvent) (s : State) : (logEvent e s).reqQ = s.reqQ := rfl
@[simp] theorem logEvent_respQ (e : ChanEvent) (s : State) : (logEvent e s).respQ = s.respQ := rfl
@[simp] theorem logEvent_chanLog (e : ChanEvent) (s : State) : (logEvent e s).chanLog = s.chanLog ++ [e] := rfl
@[simp] theorem logEvent_line (e : ChanEvent) (s : State) : (logEvent e s).line = s.line := rfl
@[simp] theorem logEvent_refused (e : ChanEvent) (s : State) : (logEvent e s).refused = s.refused := rfl
@[simp] theorem logEvent_host (e : ChanEvent) (s : State) : (logEvent e s).host = s.host := rfl
@[simp] theorem logEvent_taken (e : ChanEvent) (s : State) : (logEvent e s).taken = s.taken := rfl
@[simp] theorem logEvent_lastCmd (e : ChanEvent) (s : State) : (logEvent e s).lastCmd = s.lastCmd := rfl
@[simp] theorem logEvent_lastAlone (e : ChanEvent) (s : State) : (logEvent e s).lastAlone = s.lastAlone := rfl
@[simp] theorem logEvent_hadFailure (e : ChanEvent) (s : State) : (logEvent e s).hadFailure = s.hadFailure := rfl
@[simp] theorem logEvent_link (e : ChanEvent) (s : State) : (logEvent e s).link = s.link := rfl
@[simp] theorem logEvent_chan (e : ChanEvent) (s : State) : (logEvent e s).chan = s.chan := rfl
@[simp] theorem logEvent_draws (e : ChanEvent) (s : State) : (logEvent e s).draws = s.draws := rfl
@[simp] theorem logEvent_xfer (e : ChanEvent) (s : State) : (logEvent e s).xfer = s.xfer := rfl
@[simp] theorem logEvent_wire (e : ChanEvent) (s : State) : (logEvent e s).wire = s.wire := rfl
@[simp] theorem logEvent_past (e : ChanEvent) (s : State) : (logEvent e s).past = s.past := rfl

@[simp] theorem chanWrite_cfg (buf : List Byte) (s : State) : (chanWrite buf s).cfg = s.cfg := rfl
@[simp] theorem chanWrite_phase (buf : List Byte) (s : State) : (chanWrite buf s).phase = s.phase := rfl
@[simp] theorem chanWrite_reqQ (buf : List Byte) (s : State) : (chanWrite buf s).reqQ = s.reqQ := rfl
@[simp] theorem chanWrite_respQ (buf : List Byte) (s : State) : (chanWrite buf s).respQ = s.respQ := rfl
@[simp] theorem chanWrite_chanLog (buf : List Byte) (s : State) : (chanWrite buf s).chanLog = s.chanLog ++ [.start buf] := rfl
@[simp] theorem chanWrite_line (buf : List Byte) (s : State) : (chanWrite buf s).line = s.line := rfl
@[simp] theorem chanWrite_refused (buf : List Byte) (s : State) : (chanWrite buf s).refused = s.refused := rfl
@[simp] theorem chanWrite_host (buf : List Byte) (s : State) : (chanWrite buf s).host = s.host := rfl
@[simp] theorem chanWrite_taken (buf : List Byte) (s : State) : (chanWrite buf s).taken = s.taken := rfl
@[simp] theorem chanWrite_lastCmd (buf : List Byte) (s : State) : (chanWrite buf s).lastCmd = s.lastCmd := rfl
@[simp] theorem chanWrite_lastAlone (buf : List Byte) (s : State) : (chanWrite buf s).lastAlone = s.lastAlone := rfl
@[simp] theorem chanWrite_hadFailure (buf : List Byte) (s : State) : (chanWrite buf s).hadFailure = s.hadFailure := rfl
@[simp] theorem chanWrite_link (buf : List Byte) (s : State) : (chanWrite buf s).link = s.link := rfl
@[simp] theorem chanWrite_chan (buf : List Byte) (s : State) : (chanWrite buf s).chan = s.chan := rfl
@[simp] theorem chanWrite_draws (buf : List Byte) (s : State) : (chanWrite buf s).draws = s.draws := rfl
@[simp] theorem chanWrite_xfer (buf : List Byte) (s : State) : (chanWrite buf s).xfer = s.xfer := rfl
@[simp] theorem chanWrite_wire (buf : List Byte) (s : State) : (chanWrite buf s).wire = s.wire := rfl
@[simp] theorem chanWrite_past (buf : List Byte) (s : State) : (chanWrite buf s).past = s.past := rfl

@[simp] theorem illegalCommand_cfg (h : Word) (s : State) : (illegalCommand h s).cfg = s.cfg := rfl
@[simp] theorem illegalCommand_phase (h : Word) (s : State) : (illegalCommand h s).phase = s.phase := rfl
@[simp] theorem illegalCommand_reqQ (h : Word) (s : State) : (illegalCommand h s).reqQ = s.reqQ := rfl
@[simp] theorem illegalCommand_respQ (h : Word) (s : State) : (illegalCommand h s).respQ = s.respQ ++ [respHeader (headerOp h) .illegalCommand] := rfl
@[simp] theorem illegalCommand_chanLog (h : Word) (s : State) : (illegalCommand h s).chanLog = s.chanLog := rfl
@[simp] theorem illegalCommand_line (h : Word) (s : State) : (illegalCommand h s).line = s.line := rfl
@[simp] theorem illegalCommand_refused (h : Word) (s : State) : (illegalCommand h s).refused = s.refused := rfl
@[simp] theorem illegalCommand_host (h : Word) (s : State) : (illegalCommand h s).host = s.host := rfl
@[simp] theorem illegalCommand_taken (h : Word) (s : State) : (illegalCommand h s).taken = s.taken := rfl
@[simp] theorem illegalCommand_lastCmd (h : Word) (s : State) : (illegalCommand h s).lastCmd = s.lastCmd := rfl
@[simp] theorem illegalCommand_lastAlone (h : Word) (s : State) : (illegalCommand h s).lastAlone = s.lastAlone := rfl
@[simp] theorem illegalCommand_hadFailure (h : Word) (s : State) : (illegalCommand h s).hadFailure = s.hadFailure := rfl
@[simp] theorem illegalCommand_link (h : Word) (s : State) : (illegalCommand h s).link = s.link := rfl
@[simp] theorem illegalCommand_chan (h : Word) (s : State) : (illegalCommand h s).chan = s.chan := rfl
@[simp] theorem illegalCommand_draws (h : Word) (s : State) : (illegalCommand h s).draws = s.draws := rfl
@[simp] theorem illegalCommand_xfer (h : Word) (s : State) : (illegalCommand h s).xfer = s.xfer := rfl
@[simp] theorem illegalCommand_wire (h : Word) (s : State) : (illegalCommand h s).wire = s.wire := rfl
@[simp] theorem illegalCommand_past (h : Word) (s : State) : (illegalCommand h s).past = s.past := rfl

@[simp] theorem transmitComplete_cfg (o : ChanOutcome) (s : State) : (transmitComplete o s).cfg = s.cfg := rfl
@[simp] theorem transmitComplete_phase (o : ChanOutcome) (s : State) : (transmitComplete o s).phase = .idle := rfl
@[simp] theorem transmitComplete_reqQ (o : ChanOutcome) (s : State) : (transmitComplete o s).reqQ = s.reqQ := rfl
@[simp] theorem transmitComplete_respQ (o : ChanOutcome) (s : State) : (transmitComplete o s).respQ = s.respQ ++ [respHeader opTransmit (outcomeStatus o)] := rfl
@[simp] theorem transmitComplete_chanLog (o : ChanOutcome) (s : State) : (transmitComplete o s).chanLog = s.chanLog := rfl
@[simp] theorem transmitComplete_line (o : ChanOutcome) (s : State) : (transmitComplete o s).line = s.line := rfl
@[simp] theorem transmitComplete_refused (o : ChanOutcome) (s : State) : (transmitComplete o s).refused = s.refused := rfl
@[simp] theorem transmitComplete_host (o : ChanOutcome) (s : State) : (transmitComplete o s).host = s.host := rfl
@[simp] theorem transmitComplete_taken (o : ChanOutcome) (s : State) : (transmitComplete o s).taken = s.taken := rfl
@[simp] theorem transmitComplete_lastCmd (o : ChanOutcome) (s : State) : (transmitComplete o s).lastCmd = s.lastCmd := rfl
@[simp] theorem transmitComplete_lastAlone (o : ChanOutcome) (s : State) : (transmitComplete o s).lastAlone = s.lastAlone := rfl
@[simp] theorem transmitComplete_hadFailure (o : ChanOutcome) (s : State) : (transmitComplete o s).hadFailure = s.hadFailure := rfl
@[simp] theorem transmitComplete_link (o : ChanOutcome) (s : State) : (transmitComplete o s).link = s.link := rfl
@[simp] theorem transmitComplete_chan (o : ChanOutcome) (s : State) : (transmitComplete o s).chan = s.chan := rfl
@[simp] theorem transmitComplete_draws (o : ChanOutcome) (s : State) : (transmitComplete o s).draws = s.draws := rfl
@[simp] theorem transmitComplete_xfer (o : ChanOutcome) (s : State) : (transmitComplete o s).xfer = s.xfer := rfl
@[simp] theorem transmitComplete_wire (o : ChanOutcome) (s : State) : (transmitComplete o s).wire = s.wire := rfl
@[simp] theorem transmitComplete_past (o : ChanOutcome) (s : State) : (transmitComplete o s).past = s.past := rfl

@[simp] theorem takeUp_cfg (buf : List Byte) (o : ChanOutcome) (s : State) : (takeUp buf o s).cfg = s.cfg := rfl
@[simp] theorem takeUp_phase (buf : List Byte) (o : ChanOutcome) (s : State) : (takeUp buf o s).phase = s.phase := rfl
@[simp] theorem takeUp_reqQ (buf : List Byte) (o : ChanOutcome) (s : State) : (takeUp buf o s).reqQ = s.reqQ := rfl
@[simp] theorem takeUp_respQ (buf : List Byte) (o : ChanOutcome) (s : State) : (takeUp buf o s).respQ = s.respQ := rfl
@[simp] theorem takeUp_chanLog (buf : List Byte) (o : ChanOutcome) (s : State) : (takeUp buf o s).chanLog = s.chanLog := rfl
@[simp] theorem takeUp_line (buf : List Byte) (o : ChanOutcome) (s : State) : (takeUp buf o s).line = s.line := rfl
@[simp] theorem takeUp_refused (buf : List Byte) (o : ChanOutcome) (s : State) : (takeUp buf o s).refused = s.refused := rfl
@[simp] theorem takeUp_host (buf : List Byte) (o : ChanOutcome) (s : State) : (takeUp buf o s).host = s.host := rfl
@[simp] theorem takeUp_taken (buf : List Byte) (o : ChanOutcome) (s : State) : (takeUp buf o s).taken = s.taken := rfl
@[simp] theorem takeUp_lastCmd (buf : List Byte) (o : ChanOutcome) (s : State) : (takeUp buf o s).lastCmd = s.lastCmd := rfl
@[simp] theorem takeUp_lastAlone (buf : List Byte) (o : ChanOutcome) (s : State) : (takeUp buf o s).lastAlone = s.lastAlone := rfl
@[simp] theorem takeUp_hadFailure (buf : List Byte) (o : ChanOutcome) (s : State) : (takeUp buf o s).hadFailure = s.hadFailure := rfl
@[simp] theorem takeUp_link (buf : List Byte) (o : ChanOutcome) (s : State) : (takeUp buf o s).link = s.link := rfl
@[simp] theorem takeUp_chan (buf : List Byte) (o : ChanOutcome) (s : State) : (takeUp buf o s).chan = s.chan := rfl
@[simp] theorem takeUp_draws (buf : List Byte) (o : ChanOutcome) (s : State) : (takeUp buf o s).draws = s.draws := rfl
@[simp] theorem takeUp_xfer (buf : List Byte) (o : ChanOutcome) (s : State) : (takeUp buf o s).xfer = some ⟨o, wave (clocked o buf)⟩ := rfl
@[simp] theorem takeUp_wire (buf : List Byte) (o : ChanOutcome) (s : State) : (takeUp buf o s).wire = s.wire := rfl
@[simp] theorem takeUp_past (buf : List Byte) (o : ChanOutcome) (s : State) : (takeUp buf o s).past = s.past := rfl

@[simp] theorem clockBit_cfg (o : ChanOutcome) (b : Bool) (left : List Bool) (s : State) : (clockBit o b left s).cfg = s.cfg := rfl
@[simp] theorem clockBit_phase (o : ChanOutcome) (b : Bool) (left : List Bool) (s : State) : (clockBit o b left s).phase = s.phase := rfl
@[simp] theorem clockBit_reqQ (o : ChanOutcome) (b : Bool) (left : List Bool) (s : State) : (clockBit o b left s).reqQ = s.reqQ := rfl
@[simp] theorem clockBit_respQ (o : ChanOutcome) (b : Bool) (left : List Bool) (s : State) : (clockBit o b left s).respQ = s.respQ := rfl
@[simp] theorem clockBit_chanLog (o : ChanOutcome) (b : Bool) (left : List Bool) (s : State) : (clockBit o b left s).chanLog = s.chanLog := rfl
@[simp] theorem clockBit_line (o : ChanOutcome) (b : Bool) (left : List Bool) (s : State) : (clockBit o b left s).line = Level.ofBit b := rfl
@[simp] theorem clockBit_refused (o : ChanOutcome) (b : Bool) (left : List Bool) (s : State) : (clockBit o b left s).refused = s.refused := rfl
@[simp] theorem clockBit_host (o : ChanOutcome) (b : Bool) (left : List Bool) (s : State) : (clockBit o b left s).host = s.host := rfl
@[simp] theorem clockBit_taken (o : ChanOutcome) (b : Bool) (left : List Bool) (s : State) : (clockBit o b left s).taken = s.taken := rfl
@[simp] theorem clockBit_lastCmd (o : ChanOutcome) (b : Bool) (left : List Bool) (s : State) : (clockBit o b left s).lastCmd = s.lastCmd := rfl
@[simp] theorem clockBit_lastAlone (o : ChanOutcome) (b : Bool) (left : List Bool) (s : State) : (clockBit o b left s).lastAlone = s.lastAlone := rfl
@[simp] theorem clockBit_hadFailure (o : ChanOutcome) (b : Bool) (left : List Bool) (s : State) : (clockBit o b left s).hadFailure = s.hadFailure := rfl
@[simp] theorem clockBit_link (o : ChanOutcome) (b : Bool) (left : List Bool) (s : State) : (clockBit o b left s).link = s.link := rfl
@[simp] theorem clockBit_chan (o : ChanOutcome) (b : Bool) (left : List Bool) (s : State) : (clockBit o b left s).chan = s.chan := rfl
@[simp] theorem clockBit_draws (o : ChanOutcome) (b : Bool) (left : List Bool) (s : State) : (clockBit o b left s).draws = s.draws := rfl
@[simp] theorem clockBit_xfer (o : ChanOutcome) (b : Bool) (left : List Bool) (s : State) : (clockBit o b left s).xfer = some ⟨o, left⟩ := rfl
@[simp] theorem clockBit_wire (o : ChanOutcome) (b : Bool) (left : List Bool) (s : State) : (clockBit o b left s).wire = s.wire ++ [b] := rfl
@[simp] theorem clockBit_past (o : ChanOutcome) (b : Bool) (left : List Bool) (s : State) : (clockBit o b left s).past = s.past := rfl

@[simp] theorem report_cfg (o : ChanOutcome) (s : State) : (report o s).cfg = s.cfg := rfl
@[simp] theorem report_phase (o : ChanOutcome) (s : State) : (report o s).phase = s.phase := rfl
@[simp] theorem report_reqQ (o : ChanOutcome) (s : State) : (report o s).reqQ = s.reqQ := rfl
@[simp] theorem report_respQ (o : ChanOutcome) (s : State) : (report o s).respQ = s.respQ := rfl
@[simp] theorem report_chanLog (o : ChanOutcome) (s : State) : (report o s).chanLog = s.chanLog ++ [.done o] := rfl
@[simp] theorem report_line (o : ChanOutcome) (s : State) : (report o s).line = .low := rfl
@[simp] theorem report_refused (o : ChanOutcome) (s : State) : (report o s).refused = s.refused := rfl
@[simp] theorem report_host (o : ChanOutcome) (s : State) : (report o s).host = s.host := rfl
@[simp] theorem report_taken (o : ChanOutcome) (s : State) : (report o s).taken = s.taken := rfl
@[simp] theorem report_lastCmd (o : ChanOutcome) (s : State) : (report o s).lastCmd = s.lastCmd := rfl
@[simp] theorem report_lastAlone (o : ChanOutcome) (s : State) : (report o s).lastAlone = s.lastAlone := rfl
@[simp] theorem report_hadFailure (o : ChanOutcome) (s : State) : (report o s).hadFailure = s.hadFailure := rfl
@[simp] theorem report_link (o : ChanOutcome) (s : State) : (report o s).link = s.link := rfl
@[simp] theorem report_chan (o : ChanOutcome) (s : State) : (report o s).chan = s.chan := rfl
@[simp] theorem report_draws (o : ChanOutcome) (s : State) : (report o s).draws = s.draws := rfl
@[simp] theorem report_xfer (o : ChanOutcome) (s : State) : (report o s).xfer = none := rfl
@[simp] theorem report_wire (o : ChanOutcome) (s : State) : (report o s).wire = s.wire := rfl
@[simp] theorem report_past (o : ChanOutcome) (s : State) : (report o s).past = s.past := rfl

@[simp] theorem takeResponse_cfg (s : State) : (takeResponse s).cfg = s.cfg := rfl
@[simp] theorem takeResponse_phase (s : State) : (takeResponse s).phase = s.phase := rfl
@[simp] theorem takeResponse_reqQ (s : State) : (takeResponse s).reqQ = s.reqQ := rfl
@[simp] theorem takeResponse_respQ (s : State) : (takeResponse s).respQ = s.respQ.drop 1 := rfl
@[simp] theorem takeResponse_chanLog (s : State) : (takeResponse s).chanLog = s.chanLog := rfl
@[simp] theorem takeResponse_line (s : State) : (takeResponse s).line = s.line := rfl
@[simp] theorem takeResponse_refused (s : State) : (takeResponse s).refused = s.refused := rfl
@[simp] theorem takeResponse_host (s : State) : (takeResponse s).host = s.host := rfl
@[simp] theorem takeResponse_taken (s : State) : (takeResponse s).taken = s.taken ++ s.respQ.take 1 := rfl
@[simp] theorem takeResponse_lastCmd (s : State) : (takeResponse s).lastCmd = s.lastCmd := rfl
@[simp] theorem takeResponse_lastAlone (s : State) : (takeResponse s).lastAlone = s.lastAlone := rfl
@[simp] theorem takeResponse_hadFailure (s : State) : (takeResponse s).hadFailure = s.hadFailure := rfl
@[simp] theorem takeResponse_link (s : State) : (takeResponse s).link = s.link := rfl
@[simp] theorem takeResponse_chan (s : State) : (takeResponse s).chan = s.chan := rfl
@[simp] theorem takeResponse_draws (s : State) : (takeResponse s).draws = s.draws := rfl
@[simp] theorem takeResponse_xfer (s : State) : (takeResponse s).xfer = s.xfer := rfl
@[simp] theorem takeResponse_wire (s : State) : (takeResponse s).wire = s.wire := rfl
@[simp] theorem takeResponse_past (s : State) : (takeResponse s).past = s.past := rfl

@[simp] theorem writeRequest_cfg (w : Word) (s : State) : (writeRequest w s).cfg = s.cfg := rfl
@[simp] theorem writeRequest_phase (w : Word) (s : State) : (writeRequest w s).phase = s.phase := rfl
@[simp] theorem writeRequest_reqQ (w : Word) (s : State) : (writeRequest w s).reqQ = s.reqQ ++ [w] := rfl
@[simp] theorem writeRequest_respQ (w : Word) (s : State) : (writeRequest w s).respQ = s.respQ := rfl
@[simp] theorem writeRequest_chanLog (w : Word) (s : State) : (writeRequest w s).chanLog = s.chanLog := rfl
@[simp] theorem writeRequest_line (w : Word) (s : State) : (writeRequest w s).line = s.line := rfl
@[simp] theorem writeRequest_refused (w : Word) (s : State) : (writeRequest w s).refused = s.refused := rfl
@[simp] theorem writeRequest_host (w : Word) (s : State) : (writeRequest w s).host = s.host := rfl
@[simp] theorem writeRequest_taken (w : Word) (s : State) : (writeRequest w s).taken = s.taken := rfl
@[simp] theorem writeRequest_lastCmd (w : Word) (s : State) : (writeRequest w s).lastCmd = if atHeader s then [w] else s.lastCmd ++ [w] := rfl
@[simp] theorem writeRequest_lastAlone (w : Word) (s : State) : (writeRequest w s).lastAlone = if atHeader s then settled s else s.lastAlone := rfl
@[simp] theorem writeRequest_hadFailure (w : Word) (s : State) : (writeRequest w s).hadFailure = s.hadFailure := rfl
@[simp] theorem writeRequest_link (w : Word) (s : State) : (writeRequest w s).link = s.link := rfl
@[simp] theorem writeRequest_chan (w : Word) (s : State) : (writeRequest w s).chan = s.chan := rfl
@[simp] theorem writeRequest_draws (w : Word) (s : State) : (writeRequest w s).draws = s.draws := rfl
@[simp] theorem writeRequest_xfer (w : Word) (s : State) : (writeRequest w s).xfer = s.xfer := rfl
@[simp] theorem writeRequest_wire (w : Word) (s : State) : (writeRequest w s).wire = s.wire := rfl
@[simp] theorem writeRequest_past (w : Word) (s : State) : (writeRequest w s).past = s.past := rfl

@[simp] theorem resetBlock_cfg (s : State) : (resetBlock s).cfg = s.cfg := rfl
@[simp] theorem resetBlock_phase (s : State) : (resetBlock s).phase = .idle := rfl
@[simp] theorem resetBlock_reqQ (s : State) : (resetBlock s).reqQ = [] := rfl
@[simp] theorem resetBlock_respQ (s : State) : (resetBlock s).respQ = [] := rfl
@[simp] theorem resetBlock_chanLog (s : State) : (resetBlock s).chanLog = [] := rfl
@[simp] theorem resetBlock_line (s : State) : (resetBlock s).line = .low := rfl
@[simp] theorem resetBlock_refused (s : State) : (resetBlock s).refused = !s.cfg.wf := rfl
@[simp] theorem resetBlock_host (s : State) : (resetBlock s).host = s.host := rfl
@[simp] theorem resetBlock_taken (s : State) : (resetBlock s).taken = [] := rfl
@[simp] theorem resetBlock_lastCmd (s : State) : (resetBlock s).lastCmd = if allRun s then s.lastCmd else [] := rfl
@[simp] theorem resetBlock_lastAlone (s : State) : (resetBlock s).lastAlone = (s.lastAlone && settled s) := rfl
@[simp] theorem resetBlock_hadFailure (s : State) : (resetBlock s).hadFailure = failedSinceOpen s := rfl
@[simp] theorem resetBlock_link (s : State) : (resetBlock s).link = s.link.afterReset := rfl
@[simp] theorem resetBlock_chan (s : State) : (resetBlock s).chan = s.chan := rfl
@[simp] theorem resetBlock_draws (s : State) : (resetBlock s).draws = s.draws := rfl
@[simp] theorem resetBlock_xfer (s : State) : (resetBlock s).xfer = none := rfl
@[simp] theorem resetBlock_wire (s : State) : (resetBlock s).wire = [] := rfl
@[simp] theorem resetBlock_past (s : State) : (resetBlock s).past = [] := rfl

@[simp] theorem openChannel_cfg (hz : Nat) (s : State) : (openChannel hz s).cfg = s.cfg := rfl
@[simp] theorem openChannel_phase (hz : Nat) (s : State) : (openChannel hz s).phase = s.phase := rfl
@[simp] theorem openChannel_reqQ (hz : Nat) (s : State) : (openChannel hz s).reqQ = s.reqQ := rfl
@[simp] theorem openChannel_respQ (hz : Nat) (s : State) : (openChannel hz s).respQ = s.respQ := rfl
@[simp] theorem openChannel_chanLog (hz : Nat) (s : State) : (openChannel hz s).chanLog = s.chanLog := rfl
@[simp] theorem openChannel_line (hz : Nat) (s : State) : (openChannel hz s).line = s.line := rfl
@[simp] theorem openChannel_refused (hz : Nat) (s : State) : (openChannel hz s).refused = s.refused := rfl
@[simp] theorem openChannel_host (hz : Nat) (s : State) : (openChannel hz s).host = s.host := rfl
@[simp] theorem openChannel_taken (hz : Nat) (s : State) : (openChannel hz s).taken = s.taken := rfl
@[simp] theorem openChannel_lastCmd (hz : Nat) (s : State) : (openChannel hz s).lastCmd = s.lastCmd := rfl
@[simp] theorem openChannel_lastAlone (hz : Nat) (s : State) : (openChannel hz s).lastAlone = s.lastAlone := rfl
@[simp] theorem openChannel_hadFailure (hz : Nat) (s : State) : (openChannel hz s).hadFailure = false := rfl
@[simp] theorem openChannel_link (hz : Nat) (s : State) : (openChannel hz s).link = .opened hz := rfl
@[simp] theorem openChannel_chan (hz : Nat) (s : State) : (openChannel hz s).chan = s.chan := rfl
@[simp] theorem openChannel_draws (hz : Nat) (s : State) : (openChannel hz s).draws = s.draws := rfl
@[simp] theorem openChannel_xfer (hz : Nat) (s : State) : (openChannel hz s).xfer = s.xfer := rfl
@[simp] theorem openChannel_wire (hz : Nat) (s : State) : (openChannel hz s).wire = s.wire := rfl
@[simp] theorem openChannel_past (hz : Nat) (s : State) : (openChannel hz s).past = s.past := rfl

@[simp] theorem closeChannel_cfg (l : Link) (s : State) : (closeChannel l s).cfg = s.cfg := rfl
@[simp] theorem closeChannel_phase (l : Link) (s : State) : (closeChannel l s).phase = .idle := rfl
@[simp] theorem closeChannel_reqQ (l : Link) (s : State) : (closeChannel l s).reqQ = [] := rfl
@[simp] theorem closeChannel_respQ (l : Link) (s : State) : (closeChannel l s).respQ = [] := rfl
@[simp] theorem closeChannel_chanLog (l : Link) (s : State) : (closeChannel l s).chanLog = [] := rfl
@[simp] theorem closeChannel_line (l : Link) (s : State) : (closeChannel l s).line = .low := rfl
@[simp] theorem closeChannel_refused (l : Link) (s : State) : (closeChannel l s).refused = !s.cfg.wf := rfl
@[simp] theorem closeChannel_host (l : Link) (s : State) : (closeChannel l s).host = s.host := rfl
@[simp] theorem closeChannel_taken (l : Link) (s : State) : (closeChannel l s).taken = s.taken := rfl
@[simp] theorem closeChannel_lastCmd (l : Link) (s : State) : (closeChannel l s).lastCmd = s.lastCmd := rfl
@[simp] theorem closeChannel_lastAlone (l : Link) (s : State) : (closeChannel l s).lastAlone = s.lastAlone := rfl
@[simp] theorem closeChannel_hadFailure (l : Link) (s : State) : (closeChannel l s).hadFailure = false := rfl
@[simp] theorem closeChannel_link (l : Link) (s : State) : (closeChannel l s).link = l := rfl
@[simp] theorem closeChannel_chan (l : Link) (s : State) : (closeChannel l s).chan = s.chan := rfl
@[simp] theorem closeChannel_draws (l : Link) (s : State) : (closeChannel l s).draws = s.draws := rfl
@[simp] theorem closeChannel_xfer (l : Link) (s : State) : (closeChannel l s).xfer = none := rfl
@[simp] theorem closeChannel_wire (l : Link) (s : State) : (closeChannel l s).wire = s.wire := rfl
@[simp] theorem closeChannel_past (l : Link) (s : State) : (closeChannel l s).past = s.past ++ s.chanLog := rfl

@[simp] theorem afterDraw_cfg (s : State) : (afterDraw s).cfg = s.cfg := by unfold afterDraw; split <;> rfl
@[simp] theorem afterDraw_phase (s : State) : (afterDraw s).phase = s.phase := by unfold afterDraw; split <;> rfl
@[simp] theorem afterDraw_reqQ (s : State) : (afterDraw s).reqQ = s.reqQ := by unfold afterDraw; split <;> rfl
@[simp] theorem afterDraw_respQ (s : State) : (afterDraw s).respQ = s.respQ := by unfold afterDraw; split <;> rfl
@[simp] theorem afterDraw_chanLog (s : State) : (afterDraw s).chanLog = s.chanLog := by unfold afterDraw; split <;> rfl
@[simp] theorem afterDraw_line (s : State) : (afterDraw s).line = s.line := by unfold afterDraw; split <;> rfl
@[simp] theorem afterDraw_refused (s : State) : (afterDraw s).refused = s.refused := by unfold afterDraw; split <;> rfl
@[simp] theorem afterDraw_host (s : State) : (afterDraw s).host = s.host := by unfold afterDraw; split <;> rfl
@[simp] theorem afterDraw_taken (s : State) : (afterDraw s).taken = s.taken := by unfold afterDraw; split <;> rfl
@[simp] theorem afterDraw_lastCmd (s : State) : (afterDraw s).lastCmd = s.lastCmd := by unfold afterDraw; split <;> rfl
@[simp] theorem afterDraw_lastAlone (s : State) : (afterDraw s).lastAlone = s.lastAlone := by unfold afterDraw; split <;> rfl
@[simp] theorem afterDraw_hadFailure (s : State) : (afterDraw s).hadFailure = s.hadFailure := by unfold afterDraw; split <;> rfl
@[simp] theorem afterDraw_link (s : State) : (afterDraw s).link = s.link := by unfold afterDraw; split <;> rfl
@[simp] theorem afterDraw_xfer (s : State) : (afterDraw s).xfer = s.xfer := by unfold afterDraw; split <;> rfl
@[simp] theorem afterDraw_wire (s : State) : (afterDraw s).wire = s.wire := by unfold afterDraw; split <;> rfl
@[simp] theorem afterDraw_past (s : State) : (afterDraw s).past = s.past := by unfold afterDraw; split <;> rfl

@[simp] theorem resetWith_cfg (cfg : Config) : (State.resetWith cfg).cfg = cfg := rfl
@[simp] theorem resetWith_phase (cfg : Config) : (State.resetWith cfg).phase = .idle := rfl
@[simp] theorem resetWith_reqQ (cfg : Config) : (State.resetWith cfg).reqQ = [] := rfl
@[simp] theorem resetWith_respQ (cfg : Config) : (State.resetWith cfg).respQ = [] := rfl
@[simp] theorem resetWith_chanLog (cfg : Config) : (State.resetWith cfg).chanLog = [] := rfl
@[simp] theorem resetWith_line (cfg : Config) : (State.resetWith cfg).line = .low := rfl
@[simp] theorem resetWith_refused (cfg : Config) : (State.resetWith cfg).refused = !cfg.wf := rfl
@[simp] theorem resetWith_host (cfg : Config) : (State.resetWith cfg).host = [] := rfl
@[simp] theorem resetWith_taken (cfg : Config) : (State.resetWith cfg).taken = [] := rfl
@[simp] theorem resetWith_lastCmd (cfg : Config) : (State.resetWith cfg).lastCmd = [] := rfl
@[simp] theorem resetWith_lastAlone (cfg : Config) : (State.resetWith cfg).lastAlone = false := rfl
@[simp] theorem resetWith_hadFailure (cfg : Config) : (State.resetWith cfg).hadFailure = false := rfl
@[simp] theorem resetWith_link (cfg : Config) : (State.resetWith cfg).link = .closed := rfl
@[simp] theorem resetWith_chan (cfg : Config) : (State.resetWith cfg).chan = [] := rfl
@[simp] theorem resetWith_draws (cfg : Config) : (State.resetWith cfg).draws = 0 := rfl
@[simp] theorem resetWith_xfer (cfg : Config) : (State.resetWith cfg).xfer = none := rfl
@[simp] theorem resetWith_wire (cfg : Config) : (State.resetWith cfg).wire = [] := rfl
@[simp] theorem resetWith_past (cfg : Config) : (State.resetWith cfg).past = [] := rfl

end Sys2Proof.Machine
end

