-- ==== Sys2Proof/Laws/Step.lean ====
section
/-! SUPPORT. What one step can do, said once: the moves of the Core and the Channel (`BlockMove`) and of the Host, and
that the block always has a next state. Later proofs case on these and do not unfold the step. -/

namespace Sys2Proof.Machine

/-- What an accepted command does (41_commands.md R99 to R101), by the result of the shape check. -/
theorem exec_eq (i : Instr) (s : State) :
    exec i s =
      if i.frame.length ≠ s.cfg.N then .next (raiseStatus (opcode i) .shapeMismatch s)
      else
        match i with
        | .encode px =>
          .next (respWrite (BitVec.ofNat 32 (encodeFn s.cfg px).length :: dataWords (encodeFn s.cfg px))
            (raiseStatus opEncode .ok s))
        | .transmit px => .next (setPhase (.busy (encodeFn s.cfg px)) (chanWrite (encodeFn s.cfg px) s)) := by
  cases i <;> rfl

/-! ### Which agent moves -/

/-- In `Idle` the Core moves (41_commands.md R98). -/
theorem blockStep_of_idle {s : State} (hp : s.phase = .idle) : blockStep s = coreStep s := by
  unfold blockStep; split <;> simp_all

/-- While a transfer is being clocked the Channel moves (log 6). -/
theorem blockStep_of_xfer {s : State} {buf : List Byte} {x : Transfer} (hp : s.phase = .busy buf)
    (hx : s.xfer = some x) : blockStep s = .next (clockOrReport x s) := by
  unfold blockStep; split <;> simp_all

/-- After the report the Core completes TRANSMIT (41_commands.md R101). -/
theorem blockStep_of_done {s : State} {buf : List Byte} {o : ChanOutcome} (hp : s.phase = .busy buf)
    (hx : s.xfer = none) (hl : chanResult s.chanLog = some o) : blockStep s = .next (transmitComplete o s) := by
  unfold blockStep; split <;> simp_all

/-- Before it is taken up, the Channel takes up the transfer (42_channel_wire.md R110). -/
theorem blockStep_of_start {s : State} {buf : List Byte} (hp : s.phase = .busy buf) (hx : s.xfer = none)
    (hl : s.chanLog.getLast? = some (.start buf)) :
    blockStep s = .next (takeUp buf (drawn buf s) (afterDraw s)) := by
  have hr : chanResult s.chanLog = none := by simp [chanResult, hl]
  unfold blockStep; split <;> simp_all

/-- What a draw uses up: one fixed outcome or one free draw. -/
theorem afterDraw_eq (s : State) : ∃ chan draws, afterDraw s = { s with chan := chan, draws := draws } := by
  unfold afterDraw; split
  · exact ⟨_, s.draws, rfl⟩
  · exact ⟨s.chan, _, rfl⟩

theorem chanResult_eq_some {log : List ChanEvent} {o : ChanOutcome} (h : chanResult log = some o) :
    log.getLast? = some (.done o) := by
  unfold chanResult at h; split at h <;> simp_all

/-- The moves of the Core and the Channel. -/
inductive BlockMove (s : State) : State → Prop where
  /-- Nothing is enabled. -/
  | held (h : (s.phase = .idle ∧ decode s.reqQ = .held) ∨
      ∃ buf, s.phase = .busy buf ∧ s.xfer = none ∧ chanResult s.chanLog = none ∧ s.chanLog.getLast? ≠ some (.start buf)) :
      BlockMove s s
  /-- An illegal header is answered. -/
  | illegal (h : Word) (rest : List Word) (hp : s.phase = .idle) (hd : decode s.reqQ = .illegal h rest) :
      BlockMove s (illegalCommand h (consume rest s))
  /-- A command of the wrong length is answered. -/
  | mismatch (i : Instr) (rest : List Word) (hp : s.phase = .idle) (hd : decode s.reqQ = .command i rest)
      (hn : i.frame.length ≠ s.cfg.N) : BlockMove s (raiseStatus (opcode i) .shapeMismatch (consume rest s))
  /-- ENCODE answers its buffer. -/
  | encode (px : Frame) (rest : List Word) (hp : s.phase = .idle) (hd : decode s.reqQ = .command (.encode px) rest)
      (hn : px.length = s.cfg.N) :
      BlockMove s (respWrite (BitVec.ofNat 32 (encodeFn s.cfg px).length :: dataWords (encodeFn s.cfg px))
        (raiseStatus opEncode .ok (consume rest s)))
  /-- TRANSMIT issues its transfer. -/
  | issue (px : Frame) (rest : List Word) (hp : s.phase = .idle) (hd : decode s.reqQ = .command (.transmit px) rest)
      (hn : px.length = s.cfg.N) :
      BlockMove s (setPhase (.busy (encodeFn s.cfg px)) (chanWrite (encodeFn s.cfg px) (consume rest s)))
  /-- The Channel takes up the transfer. -/
  | takeUp (buf : List Byte) (hp : s.phase = .busy buf) (hx : s.xfer = none)
      (hl : s.chanLog.getLast? = some (.start buf)) : BlockMove s (takeUp buf (drawn buf s) (afterDraw s))
  /-- The Channel clocks one bus bit. -/
  | clock (buf : List Byte) (o : ChanOutcome) (b : Bool) (left : List Bool) (hp : s.phase = .busy buf)
      (hx : s.xfer = some ⟨o, b :: left⟩) : BlockMove s (clockBit o b left s)
  /-- The Channel reports. -/
  | report (buf : List Byte) (o : ChanOutcome) (hp : s.phase = .busy buf) (hx : s.xfer = some ⟨o, []⟩) :
      BlockMove s (report o s)
  /-- TRANSMIT completes. -/
  | complete (buf : List Byte) (o : ChanOutcome) (hp : s.phase = .busy buf) (hx : s.xfer = none)
      (hr : chanResult s.chanLog = some o) : BlockMove s (transmitComplete o s)

/-- The Core or the Channel always has a next state, and it is one of `BlockMove`. -/
theorem blockStep_move (s : State) : ∃ t, blockStep s = .next t ∧ BlockMove s t := by
  cases hp : s.phase with
  | idle =>
    simp only [blockStep, hp, coreStep]
    cases hd : decode s.reqQ with
    | held => exact ⟨_, rfl, .held (.inl ⟨hp, hd⟩)⟩
    | illegal h rest => exact ⟨_, rfl, .illegal h rest hp hd⟩
    | command i rest =>
      simp only [exec_eq]
      by_cases hn : i.frame.length = s.cfg.N
      · cases i with
        | encode px => exact ⟨_, if_neg (fun h => h hn), .encode px rest hp hd hn⟩
        | transmit px => exact ⟨_, if_neg (fun h => h hn), .issue px rest hp hd hn⟩
      · simp only [consume_cfg, ne_eq, hn, not_false_eq_true, if_true]
        exact ⟨_, rfl, .mismatch i rest hp hd hn⟩
  | busy buf =>
    simp only [blockStep, hp]
    cases hx : s.xfer with
    | some x =>
      obtain ⟨o, left⟩ := x
      cases left with
      | nil => exact ⟨_, rfl, .report buf o hp hx⟩
      | cons b left => exact ⟨_, rfl, .clock buf o b left hp hx⟩
    | none =>
      cases hr : chanResult s.chanLog with
      | some o => exact ⟨_, rfl, .complete buf o hp hx hr⟩
      | none =>
        by_cases hl : s.chanLog.getLast? = some (.start buf)
        · exact ⟨_, if_pos hl, .takeUp buf hp hx hl⟩
        · exact ⟨_, if_neg hl, .held (.inr ⟨buf, hp, hx, hr, hl⟩)⟩

theorem blockStep_next {s t : State} (h : blockStep s = .next t) : BlockMove s t := by
  obtain ⟨u, hu, hm⟩ := blockStep_move s
  rw [h] at hu
  injection hu with e
  exact e ▸ hm

/-- An accepted state takes an agent's step. -/
theorem step_of_accepted {s : State} (h : s.Accepted) : step s = agentStep s := by
  simp [step, guardedStep, h.1, h.2]

/-- With no Host move to come the block or the Channel moves. -/
theorem step_of_blockMoves {s : State} (h : s.BlockMoves) : step s = blockStep s := by
  rw [step_of_accepted h.1, agentStep, h.2]

/-- With a Host move to come it is made. -/
theorem step_of_hostMove {s : State} (h : s.Accepted) {m : HostMove} {ms : List HostMove} (hh : s.host = m :: ms) :
    step s = hostMove m { s with host := ms } := by
  rw [step_of_accepted h, agentStep, hh]

/-- A close that is made: in `Idle`, and by its condition. -/
theorem closeMove_next {ok : Bool} {l : Link} {s t : State} (h : closeMove ok l s = .next t) :
    s.phase = .idle ∧ ok = true ∧ t = closeChannel l s := by
  unfold closeMove at h
  split at h
  · rename_i hp
    split at h
    · rename_i ho; injection h with e; exact ⟨hp, ho, e.symm⟩
    · cases h
  · cases h

/-- Everything a step that answers a next state can do. -/
inductive StepMove (s : State) : State → Prop where
  | block (t : State) (hh : s.host = []) (hm : BlockMove s t) : StepMove s t
  | wait (t : State) (ms : List HostMove) (hh : s.host = .wait :: ms) (hm : BlockMove { s with host := ms } t) :
      StepMove s t
  | write (w : Word) (ms : List HostMove) (hh : s.host = .write w :: ms) (hm : mayWrite w s = true) :
      StepMove s (writeRequest w { s with host := ms })
  | take (ms : List HostMove) (hh : s.host = .take :: ms) : StepMove s (takeResponse { s with host := ms })
  | reset (ms : List HostMove) (hh : s.host = .reset :: ms) : StepMove s (resetBlock { s with host := ms })
  | openChannel (hz : Nat) (ms : List HostMove) (hh : s.host = .openChannel hz :: ms) (hm : mayOpen hz s = true) :
      StepMove s (openChannel hz { s with host := ms })
  | shutDown (ms : List HostMove) (hh : s.host = .closeChannel :: ms) (hp : s.phase = .idle)
      (hm : mayShutDown s = true) : StepMove s (closeChannel .shutDown { s with host := ms })
  | reconnect (ms : List HostMove) (hh : s.host = .closeToReconnect :: ms) (hp : s.phase = .idle)
      (hm : mayReconnect s = true) : StepMove s (closeChannel .closed { s with host := ms })

/-- The inversion of a step. -/
theorem step_next {s t : State} (h : step s = .next t) : s.Accepted ∧ StepMove s t := by
  have ha : s.Accepted := by
    unfold step guardedStep at h
    split at h
    · cases h
    · rename_i hc; simpa [State.Accepted] using hc
  refine ⟨ha, ?_⟩
  cases hh : s.host with
  | nil => exact .block t hh (blockStep_next (by rw [← step_of_blockMoves ⟨ha, hh⟩, h]))
  | cons m ms =>
    rw [step_of_hostMove ha hh] at h
    cases m with
    | write w =>
      simp only [hostMove] at h
      split at h
      · rename_i hm; injection h with e; exact e ▸ .write w ms hh hm
      · cases h
    | take => injection h with e; exact e ▸ .take ms hh
    | reset => injection h with e; exact e ▸ .reset ms hh
    | openChannel hz =>
      simp only [hostMove] at h
      split at h
      · rename_i hm; injection h with e; exact e ▸ .openChannel hz ms hh hm
      · cases h
    | closeChannel =>
      obtain ⟨hp, hm, rfl⟩ := closeMove_next h
      exact .shutDown ms hh hp hm
    | closeToReconnect =>
      obtain ⟨hp, hm, rfl⟩ := closeMove_next h
      exact .reconnect ms hh hp hm
    | wait => exact .wait t ms hh (blockStep_next h)

end Sys2Proof.Machine
end

