-- ==== Sys2Proof/Laws/Duties.lean ====
section
/-! SUPPORT. The conditions under which a move of the Host keeps its duties (41_commands.md R107), in the terms of the
statements, and what each guarded move answers. -/

namespace Sys2Proof

/-- The upper half of a word, cut out by a mask or by two shifts. -/
theorem and_upper_half (w : Word) : w &&& 0xFFFF0000#32 = (w >>> 16) <<< 16 := by
  ext i hi
  rw [BitVec.getElem_and, BitVec.getElem_shiftLeft]
  have hm : (0xFFFF0000#32)[i] = decide (16 ≤ i) := by
    revert hi; revert i; decide
  rw [hm]
  by_cases h : i < 16
  · simp [h, show ¬ 16 ≤ i by omega]
  · simp [h, show 16 ≤ i by omega, show 16 + (i - 16) = i by omega, BitVec.getLsbD_eq_getElem hi]

/-- A header of TRANSMIT by its upper half (30_encoding.md R68). -/
theorem startsTransmit_iff (w : Word) : startsTransmit w = true ↔ w &&& 0xFFFF0000#32 = 0x02000000#32 := by
  rw [and_upper_half]
  simp only [startsTransmit, legal, headerOp, headerRsv, opEncode, opTransmit, Bool.and_eq_true, Bool.or_eq_true,
    beq_iff_eq, BitVec.toNat_eq]
  simp only [BitVec.extractLsb'_toNat, BitVec.toNat_shiftLeft, BitVec.toNat_ushiftRight, Nat.shiftRight_eq_div_pow,
    Nat.shiftLeft_eq]
  simp
  omega

namespace Machine

theorem chanResult_eq_some_iff {log : List ChanEvent} {o : ChanOutcome} :
    chanResult log = some o ↔ log.getLast? = some (.done o) := by
  unfold chanResult; split <;> simp_all

theorem settled_iff (s : State) : settled s = true ↔ s.phase = .idle ∧ s.reqQ = [] ∧ s.respQ = [] := by
  simp [settled, allRun, and_assoc]

theorem failedSinceOpen_iff (s : State) :
    failedSinceOpen s = true ↔ s.hadFailure = true ∨ ∃ k, .done (.fail k) ∈ s.chanLog := by
  simp only [failedSinceOpen, Bool.or_eq_true, List.any_eq_true]
  refine or_congr_right ⟨?_, fun ⟨k, h⟩ => ⟨_, h, rfl⟩⟩
  rintro ⟨e, h, hf⟩
  match e, hf with
  | .done (.fail k), _ => exact ⟨k, h⟩

theorem mayWrite_iff (w : Word) (s : State) :
    mayWrite w s = true ↔
      s.link = .opened s.cfg.fBus.toNat ∨ owed 0 s.reqQ ≠ 0 ∨ w &&& 0xFFFF0000#32 ≠ 0x02000000#32 := by
  rw [ne_eq (w &&& _), ← startsTransmit_iff]
  simp only [mayWrite, atHeader, channelOpen, Bool.or_eq_true, Bool.not_eq_true', Bool.and_eq_false_iff,
    decide_eq_true_eq, decide_eq_false_iff_not, Bool.not_eq_true, ne_eq]
  exact or_comm

theorem mayOpen_iff (hz : Nat) (s : State) : mayOpen hz s = true ↔ s.link = .closed ∧ hz = s.cfg.fBus.toNat := by
  simp [mayOpen]

theorem mayShutDown_iff (s : State) :
    mayShutDown s = true ↔
      s.link = .opened s.cfg.fBus.toNat ∧ (s.phase = .idle ∧ s.reqQ = [] ∧ s.respQ = []) ∧
        s.lastCmd = encode (Instr.blank s.cfg) ∧ s.lastAlone = true := by
  simp only [mayShutDown, channelOpen, lastIsBlank, Bool.and_eq_true, decide_eq_true_eq, settled_iff, and_assoc]

theorem mayReconnect_iff (s : State) :
    mayReconnect s = true ↔
      s.link = .opened s.cfg.fBus.toNat ∧ (s.phase = .idle ∧ s.reqQ = [] ∧ s.respQ = []) ∧
        (s.hadFailure = true ∨ ∃ k, .done (.fail k) ∈ s.chanLog) := by
  simp only [mayReconnect, channelOpen, Bool.and_eq_true, decide_eq_true_eq, settled_iff, failedSinceOpen_iff, and_assoc]

/-- Closing in `Idle`. -/
theorem closeMove_of_idle (ok : Bool) (l : Link) {s : State} (hp : s.phase = .idle) :
    closeMove ok l s = if ok then .next (closeChannel l s) else .refused .closeOutOfOrder := by
  unfold closeMove; split <;> simp_all

/-- Closing in `Busy`, which duty HD3 forbids. -/
theorem closeMove_of_busy (ok : Bool) (l : Link) {s : State} {buf : List Byte} (hp : s.phase = .busy buf) :
    closeMove ok l s = .refused .closeWhileBusy := by
  unfold closeMove; split <;> simp_all

/-- A reset leaves the channel open at no other rate than before. -/
theorem afterReset_eq_opened {l : Link} {hz : Nat} : l.afterReset = .opened hz ↔ l = .opened hz := by
  cases l <;> simp [Link.afterReset]

end Machine

end Sys2Proof
end

