-- ==== Sys2Proof/Laws/Framed.lean ====
section
/-! SUPPORT. Framed request streams (41_commands.md R107, HD1): more fuel changes nothing, and the rest of a framed stream
is framed. -/

namespace Sys2Proof.Machine

theorem commandsOf_mono {f : Nat} {ws : List Word} {is : List Instr} (h : commandsOf f ws = some is) {g : Nat}
    (hg : f ≤ g) : commandsOf g ws = some is := by
  induction f generalizing ws is g with
  | zero =>
    cases ws with
    | nil => cases g <;> exact h
    | cons w ws => cases h
  | succ f ih =>
    cases ws with
    | nil => cases g <;> exact h
    | cons w ws =>
      obtain ⟨g, rfl⟩ : ∃ g', g = g' + 1 := ⟨g - 1, by omega⟩
      simp only [commandsOf] at h ⊢
      cases hd : decode (w :: ws) with
      | held => rw [hd] at h; cases h
      | illegal a b => rw [hd] at h; cases h
      | command i rest =>
        rw [hd] at h
        simp only at h ⊢
        cases hr : commandsOf f rest with
        | none => rw [hr] at h; cases h
        | some js => rw [hr] at h; rw [ih hr (by omega)]; exact h

/-- The length of the stream is fuel enough. -/
theorem commandsOf_length {f : Nat} {ws : List Word} {is : List Instr} (h : commandsOf f ws = some is) :
    commandsOf ws.length ws = some is := by
  induction f generalizing ws is with
  | zero =>
    cases ws with
    | nil => exact h
    | cons w ws => cases h
  | succ f ih =>
    cases ws with
    | nil => exact h
    | cons w ws =>
      simp only [commandsOf, List.length_cons] at h ⊢
      cases hd : decode (w :: ws) with
      | held => rw [hd] at h; cases h
      | illegal a b => rw [hd] at h; cases h
      | command i rest =>
        rw [hd] at h
        simp only at h ⊢
        cases hr : commandsOf f rest with
        | none => rw [hr] at h; cases h
        | some js =>
          rw [hr] at h
          obtain ⟨hd', pl, e, _, _, _, e2⟩ := decode_eq_command hd
          injection e with _ e1
          rw [commandsOf_mono (ih hr) (by rw [e2, e1, List.length_drop]; omega)]
          exact h

/-- A framed stream is empty, or begins with a command and goes on framed. -/
theorem framed_cases {ws : List Word} (h : (framed ws).isSome = true) :
    ws = [] ∨ ∃ i rest, decode ws = .command i rest ∧ (framed rest).isSome = true := by
  cases ws with
  | nil => exact .inl rfl
  | cons w ws =>
    right
    unfold framed at h
    simp only [commandsOf, List.length_cons] at h
    cases hd : decode (w :: ws) with
    | held => rw [hd] at h; cases h
    | illegal a b => rw [hd] at h; cases h
    | command i rest =>
      rw [hd] at h
      simp only at h
      cases hr : commandsOf ws.length rest with
      | none => rw [hr] at h; cases h
      | some js => exact ⟨i, rest, rfl, by rw [framed, commandsOf_length hr]; rfl⟩

end Sys2Proof.Machine
end

