-- ==== Sys2Proof/Laws/Log.lean ====
section
/-! SUPPORT. Logs of reported transfers: how `logWf`, `logComplete`, `wireOf` and `startsOf` go over one more transfer. -/

namespace Sys2Proof.Machine

/-- The two shapes of a log of reported transfers. -/
theorem logWf_cases {cfg : Config} {log : List ChanEvent} (h : logWf cfg log = true) :
    log = [] ∨ ∃ buf o rest, log = .start buf :: .done o :: rest ∧ buf.length = cfg.LB ∧ admits o buf = true ∧
      logWf cfg rest = true := by
  match log, h with
  | [], _ => exact .inl rfl
  | .start buf :: .done o :: rest, h =>
    simp only [logWf, Bool.and_eq_true, decide_eq_true_eq] at h
    exact .inr ⟨buf, o, rest, rfl, h.1.1, h.1.2, h.2⟩
  | [.start _], h => simp [logWf] at h
  | .start _ :: .start _ :: _, h => simp [logWf] at h
  | .done _ :: _, h => simp [logWf] at h

/-- One more reported transfer. -/
theorem logWf_append {cfg : Config} {buf : List Byte} {o : ChanOutcome} (hb : buf.length = cfg.LB)
    (ho : admits o buf = true) {n : Nat} {log : List ChanEvent} (hn : log.length ≤ n) (h : logWf cfg log = true) :
    logWf cfg (log ++ [.start buf, .done o]) = true := by
  induction n generalizing log with
  | zero =>
    obtain rfl := List.eq_nil_of_length_eq_zero (Nat.le_zero.1 hn)
    simp [logWf, hb, ho]
  | succ n ih =>
    rcases logWf_cases h with rfl | ⟨b, o', rest, rfl, h1, h2, h3⟩
    · simp [logWf, hb, ho]
    · simp only [List.length_cons] at hn
      simp [logWf, h1, h2, ih (by omega) h3]

/-- Two logs of reported transfers, one after the other, are one (log 26). -/
theorem logWf_append_logWf {cfg : Config} {more : List ChanEvent} (hm : logWf cfg more = true) {n : Nat}
    {log : List ChanEvent} (hn : log.length ≤ n) (h : logWf cfg log = true) : logWf cfg (log ++ more) = true := by
  induction n generalizing log with
  | zero =>
    obtain rfl := List.eq_nil_of_length_eq_zero (Nat.le_zero.1 hn)
    exact hm
  | succ n ih =>
    rcases logWf_cases h with rfl | ⟨b, o', rest, rfl, h1, h2, h3⟩
    · exact hm
    · simp only [List.length_cons] at hn
      simp [logWf, h1, h2, ih (by omega) h3]

/-- The wire of a log of reported transfers comes first. -/
theorem wireOf_append {cfg : Config} (more : List ChanEvent) {n : Nat} {log : List ChanEvent} (hn : log.length ≤ n)
    (h : logWf cfg log = true) : wireOf (log ++ more) = wireOf log ++ wireOf more := by
  induction n generalizing log with
  | zero =>
    obtain rfl := List.eq_nil_of_length_eq_zero (Nat.le_zero.1 hn)
    simp [wireOf]
  | succ n ih =>
    rcases logWf_cases h with rfl | ⟨b, o', rest, rfl, h1, h2, h3⟩
    · simp [wireOf]
    · simp only [List.length_cons] at hn
      simp [wireOf, ih (by omega) h3]

/-- A log of reported transfers is complete. -/
theorem logComplete_of_logWf {cfg : Config} {n : Nat} {log : List ChanEvent} (hn : log.length ≤ n)
    (h : logWf cfg log = true) : logComplete log = true := by
  induction n generalizing log with
  | zero =>
    obtain rfl := List.eq_nil_of_length_eq_zero (Nat.le_zero.1 hn)
    rfl
  | succ n ih =>
    rcases logWf_cases h with rfl | ⟨b, o', rest, rfl, h1, h2, h3⟩
    · rfl
    · simp only [List.length_cons] at hn
      simp [logComplete, ih (by omega) h3]

theorem startsOf_append (xs ys : List ChanEvent) : startsOf (xs ++ ys) = startsOf xs ++ startsOf ys := by
  induction xs with
  | nil => rfl
  | cons e xs ih => cases e <;> simp [startsOf, ih]

theorem transfersOf_cons (cfg : Config) (i : Instr) (is : List Instr) :
    transfersOf cfg (i :: is) = transfersOf cfg [i] ++ transfersOf cfg is := by
  cases i <;> simp [transfersOf]
  split <;> simp

end Sys2Proof.Machine
end

