-- ==== Sys2Proof/Laws/Ops.lean ====
section
/-! SUPPORT. The request reads (10_state.md R37), the data words of an ENCODE response (30_encoding.md R74) and the
buffer's reads and writes (20_memory.md R48). -/

namespace Sys2Proof.Machine

/-- Reading a command's words one by one is consuming them at once, in arrival order. -/
theorem reqReads_eq_consume (ws : List Word) {rest : List Word} {s : State} (h : s.reqQ = ws ++ rest) :
    reqReads ws.length s = some (ws, consume rest s) := by
  induction ws generalizing s with
  | nil => cases s; cases h; rfl
  | cons w ws ih =>
    have hr : reqRead s = some (w, { s with reqQ := ws ++ rest }) := by simp [reqRead, h]
    simp only [List.length_cons, reqReads, hr]
    rw [ih (s := { s with reqQ := ws ++ rest }) rfl]
    rfl

/-- Byte `i` of four bytes packed into a word, the first lowest. -/
theorem extract_of_packed (b0 b1 b2 b3 : Byte) {i : Nat} (hi : i < 4) :
    (b3 ++ b2 ++ b1 ++ b0).extractLsb' (8 * i) 8 = [b0, b1, b2, b3].getD i 0 := by
  have : i = 0 ∨ i = 1 ∨ i = 2 ∨ i = 3 := by omega
  rcases this with rfl | rfl | rfl | rfl
  · ext k hk
    simp only [BitVec.getElem_extractLsb', BitVec.getLsbD_append]
    simp [hk]
  · ext k hk
    simp only [BitVec.getElem_extractLsb', BitVec.getLsbD_append]
    simp [show ¬ 8 + k < 8 by omega, hk]
  · ext k hk
    simp only [BitVec.getElem_extractLsb', BitVec.getLsbD_append]
    simp [show ¬ 16 + k < 8 by omega, show ¬ 16 + k - 8 < 8 by omega, show 16 + k - 8 - 8 = k by omega, hk]
  · ext k hk
    simp only [BitVec.getElem_extractLsb', BitVec.getLsbD_append]
    simp [show ¬ 24 + k < 8 by omega, show ¬ 24 + k - 8 < 8 by omega, show ¬ 24 + k - 8 - 8 < 8 by omega,
      show 24 + k - 8 - 8 - 8 = k by omega, BitVec.getLsbD_eq_getElem hk]

theorem dataWords_length (buf : List Byte) : (dataWords buf).length = (buf.length + 3) / 4 := by
  induction buf using dataWords.induct with
  | case1 => simp [dataWords]
  | case2 => simp [dataWords]
  | case3 => simp [dataWords]
  | case4 => simp [dataWords]
  | case5 b0 b1 b2 b3 rest ih => simp only [dataWords, List.length_cons, ih]; omega

theorem memRead_length (buf : List Byte) {a n : Nat} (h : a + n ≤ buf.length) : (memRead buf a n).length = n := by
  simp only [memRead, List.length_take, List.length_drop]; omega

theorem memWrite_length (buf : List Byte) {a : Nat} {v : List Byte} (h : a + v.length ≤ buf.length) :
    (memWrite buf a v).length = buf.length := by
  simp only [memWrite, List.length_append, List.length_take, List.length_drop]; omega

/-- A read of the bytes just written gives them. -/
theorem memRead_memWrite (buf : List Byte) {a : Nat} {v : List Byte} (h : a + v.length ≤ buf.length) :
    memRead (memWrite buf a v) a v.length = v := by
  rw [memRead, memWrite, List.append_assoc, List.drop_left' (by simp; omega), List.take_left' rfl]

/-- A write leaves every byte before it alone. -/
theorem memWrite_getElem?_before (buf : List Byte) {a k : Nat} {v : List Byte} (hk : k < a) (h : a ≤ buf.length) :
    (memWrite buf a v)[k]? = buf[k]? := by
  rw [memWrite, List.append_assoc, List.getElem?_append_left (by simp; omega), List.getElem?_take_of_lt hk]

/-- A write leaves every byte after it alone. -/
theorem memWrite_getElem?_after (buf : List Byte) {a k : Nat} {v : List Byte} (hk : a + v.length ≤ k)
    (h : a + v.length ≤ buf.length) : (memWrite buf a v)[k]? = buf[k]? := by
  rw [memWrite, List.getElem?_append_right (by simp; omega), List.getElem?_drop]
  congr 1
  simp; omega

end Sys2Proof.Machine
end

