-- ==== Sys2Proof/Laws/PerInstr.lean ====
section
/-! SUPPORT. Statements made once per constructor of `Instr`. -/

namespace Sys2Proof.Laws.EncodedLength

/-- A command of `L` pixels is encoded in `1 + 3*L` words (30_encoding.md R71). -/
def Statement (i : Instr) : Prop := (Sys2Proof.encode i).length = 1 + 3 * i.frame.length

theorem encode (px : Frame) : Statement (.encode px) := by
  simp only [Statement, Sys2Proof.encode, List.length_cons, pixelWords_payload_length]; omega

theorem transmit (px : Frame) : Statement (.transmit px) := by
  simp only [Statement, Sys2Proof.encode, List.length_cons, pixelWords_payload_length]; omega

end Sys2Proof.Laws.EncodedLength
end

