-- ==== Sys2Proof/Laws/Run.lean ====
section
/-! SUPPORT. Runs of several steps, packaged once: a run splits, and what every step keeps every run keeps. -/

namespace Sys2Proof.Machine

theorem run_succ (n : Nat) (s : State) :
    core.run (n + 1) s =
      match step s with
      | .next t => core.run n t
      | .fault f => .fault f
      | .refused r => .refused r := by
  cases h : step s <;> simp [Host.Core.run, core, h]

theorem run_one {s t : State} (h : step s = .next t) : core.run 1 s = .next t := by
  rw [run_succ, h]; rfl

/-- A run of `n + m` steps is one of `n` steps and then one of `m`. -/
theorem run_add (n m : Nat) (s : State) {t : State} (h : core.run n s = .next t) :
    core.run (n + m) s = core.run m t := by
  induction n generalizing s with
  | zero => injection h with h; rw [Nat.zero_add, h]
  | succ n ih =>
    rw [run_succ] at h
    rw [Nat.add_right_comm, run_succ]
    cases hs : step s with
    | next u => rw [hs] at h; exact ih u h
    | fault f => cases f
    | refused r => rw [hs] at h; cases h

/-- What every step keeps, every run keeps. -/
theorem run_keeps {P : State → Prop} (hk : ∀ s t, P s → step s = .next t → P t) (n : Nat) {s t : State} (hs : P s)
    (h : core.run n s = .next t) : P t := by
  induction n generalizing s with
  | zero => injection h with h; exact h ▸ hs
  | succ n ih =>
    rw [run_succ] at h
    cases e : step s with
    | next u => rw [e] at h; exact ih (hk s u hs e) h
    | fault f => cases f
    | refused r => rw [e] at h; cases h

end Sys2Proof.Machine
end

