-- ==== Sys2Proof/Laws/Timing.lean ====
section
/-! SUPPORT. From instants to bus bits: which bus bit holds the line at an instant (42_channel_wire.md R114). -/

namespace Sys2Proof.Machine

theorem busRate_pos {cfg : Config} (h : cfg.wf = true) : 0 < cfg.busRate := by
  simp only [Config.wf, Bool.and_eq_true, Config.wf12, decide_eq_true_eq] at h
  have := h.2
  unfold Config.busRate
  positivity

/-- Every instant from the start of bus bit `a` on lies in the slot of one bus bit. -/
theorem exists_slot {cfg : Config} (hf : 0 < cfg.busRate) {t : ℚ} {a : Nat} (h : cfg.busTime a ≤ t) :
    ∃ n, a ≤ n ∧ cfg.busTime n ≤ t ∧ t < cfg.busTime (n + 1) := by
  unfold Config.busTime at *
  rw [div_le_iff₀ hf] at h
  have hp : (0 : ℚ) ≤ t * cfg.busRate := le_trans (by positivity) h
  refine ⟨⌊t * cfg.busRate⌋₊, Nat.le_floor h, ?_, ?_⟩
  · rw [div_le_iff₀ hf]; exact Nat.floor_le hp
  · rw [lt_div_iff₀ hf]; push_cast; exact Nat.lt_floor_add_one _

theorem lt_of_busTime {cfg : Config} (hf : 0 < cfg.busRate) {a b : Nat} {t : ℚ} (h1 : cfg.busTime a ≤ t)
    (h2 : t < cfg.busTime b) : a < b := by
  have h := lt_of_le_of_lt h1 h2
  unfold Config.busTime at h
  rw [div_lt_div_iff_of_pos_right hf] at h
  exact_mod_cast h

/-- In the slot of bus bit `n` the line has that bit's level, and is `Low` where there is none. -/
theorem levelAt_of_slot {cfg : Config} (hf : 0 < cfg.busRate) {ws : List Bool} {t : ℚ} {n : Nat}
    (h0 : cfg.busTime n ≤ t) (h1 : t < cfg.busTime (n + 1)) :
    levelAt cfg ws t = (ws[n]?.map Level.ofBit).getD .low := by
  unfold Config.busTime at h0 h1
  rw [div_le_iff₀ hf] at h0
  rw [lt_div_iff₀ hf] at h1
  have ht : ¬ t < 0 := by
    intro c
    have := mul_neg_of_neg_of_pos c hf
    have : (0 : ℚ) ≤ n := by positivity
    linarith
  have e : ⌊t * cfg.busRate⌋ = (n : Int) := by
    rw [Int.floor_eq_iff]
    push_cast at h1 ⊢
    exact ⟨h0, h1⟩
  simp only [levelAt, ht, if_false, e, Int.toNat_natCast]
  cases ws[n]? <;> rfl

end Sys2Proof.Machine
end

