-- ==== Sys2Proof/Tests/Slice0.lean ====
section
/-! SUPPORT. The model's own tests. Expected results come from the spec's vectors (95_test_vectors.md, named at each
test) or are written out from its formats; and one witness for the hypotheses of each statement. -/

set_option Elab.async false

namespace Sys2Proof.Tests

open Sys2Proof Sys2Proof.Machine

/-! ### Small states -/

/-- Reset with `REF3`, one pixel. -/
def s3 : State := State.resetWith (Config.ref3 1)

/-- Reset with `REF8`, one pixel. -/
def s8 : State := State.resetWith (Config.ref8 1)

/-- The buffer of the blank frame under `REF3`, N = 1 (L2.8). -/
def zero3 : List Byte := [0x92, 0x49, 0x24, 0x92, 0x49, 0x24, 0x92, 0x49, 0x24] ++ List.replicate 15 0

/-- `s3` waiting for the report of `zero3`. -/
def busy3 : State := { s3 with phase := .busy zero3, chanLog := [.start zero3] }

/-- The next state of a step, seen through `f`. -/
def after {α : Type} (f : State → α) (o : Host.Outcome State Fault Refusal) : Option α :=
  match o with
  | .next t => some (f t)
  | .fault _ => none
  | .refused _ => none

/-! ### WellFormed refuses an ill-formed term for each check -/

theorem test_wf_accepts_extremes :
    Instr.wf (.encode [⟨2147483647, -2147483648, 0⟩]) = true := by decide
theorem test_wf_refuses_red : Instr.wf (.encode [⟨2147483648, 0, 0⟩]) = false := by decide
theorem test_wf_refuses_green : Instr.wf (.transmit [⟨0, -2147483649, 0⟩]) = false := by decide
theorem test_wf_refuses_blue : Instr.wf (.transmit [⟨0, 0, 2147483648⟩]) = false := by decide

/-! ### Decoding: words written out from the formats of 30_encoding.md R65, R69 -/

/-- OP = 00000001, RSV = 00000000, L = 0000000000000001, then R, G, B (L2.10). -/
theorem test_decode_encode :
    decode [0b00000001_00000000_0000000000000001#32, 0x00000000, 0x000000B0, 0x00000000] =
      .command (.encode [⟨0, 176, 0⟩]) [] := by decide

/-- OP = 00000010, RSV = 00000000, L = 0000000000000001; 300 and -10 as words (L1.4). -/
theorem test_decode_transmit :
    decode [0b00000010_00000000_0000000000000001#32, 0x0000012C, 0xFFFFFFF6, 0x00000000] =
      .command (.transmit [⟨300, -10, 0⟩]) [] := by decide

/-- L2.9: the illegal headers. -/
theorem test_decode_illegal :
    ([0x00000000, 0x03000004, 0xFF000001, 0x01010001, 0x02800004] : List Word).map legal =
      [false, false, false, false, false] := by decide

/-- L2.9: `L` of `0x0200005A` and `0x0100FFFF`. -/
theorem test_header_length : headerLen 0x0200005A = 90 ∧ headerLen 0x0100FFFF = 65535 := by decide

/-- L2.1: the operand words. -/
theorem test_operand_words :
    (pixelsOf 1 [0x80000000, 0xFFFFFFF6, 0x7FFFFFFF]) = [⟨-2147483648, -10, 2147483647⟩] := by decide

/-- P1: the words of BLANK under N = 1 (30_encoding.md R78). -/
theorem test_assemble_blank : assembleLine (Config.ref8 1) .blank = some [0x02000001, 0, 0, 0] := by decide

/-- P2: `TRANSMIT (300, -10, 0), (0, 0, 0)`. -/
theorem test_assemble_transmit :
    assembleLine (Config.ref8 2) (.transmit [⟨⟨300, -10, 0⟩, 1⟩, ⟨⟨0, 0, 0⟩, 1⟩]) =
      some [0x02000002, 0x0000012C, 0xFFFFFFF6, 0x00000000, 0x00000000, 0x00000000, 0x00000000] := by decide

/-! ### Configuration checks (L2.14) -/

theorem test_ref8_wf : (Config.ref8 4).wf = true := by decide
theorem test_ref3_wf : (Config.ref3 1).wf = true := by decide

theorem gammaAt_ref8g (u : Byte) : (Config.ref8g 1).gammaAt u = BitVec.ofNat 8 (u.toNat * u.toNat / 255) := by
  simp [Config.ref8g, Config.gammaAt, Config.tableOf]

theorem test_ref8g_wf : (Config.ref8g 1).wf = true := by
  have h9 : (Config.ref8g 1).wf9 = true := by
    simp only [Config.wf9, gammaAt_ref8g]
    decide +kernel
  have h10 : (Config.ref8g 1).wf10 = true := by
    simp only [Config.wf10, gammaAt_ref8g]
    decide
  simp only [Config.wf, h9, h10]
  decide

theorem test_wf1 : (Config.ref8 0).wf1 = false := by decide
theorem test_wf2 : ({ Config.ref8 1 with groupBits := 2, pat0 := 2, pat1 := 2 } : Config).wf2 = false := by decide
theorem test_wf3 : ({ Config.ref8 1 with pat0 := 0x1E0 } : Config).wf3 = false := by decide
theorem test_wf4 : ({ Config.ref8 1 with pat0 := 0xE1 } : Config).wf4 = false := by decide
theorem test_wf5 : ({ Config.ref8 1 with pat1 := 0xFF } : Config).wf5 = false := by decide
theorem test_wf6_equal : ({ Config.ref8 1 with pat1 := 0xE0 } : Config).wf6 = false := by decide
theorem test_wf6_greater : ({ Config.ref8 1 with pat0 := 0xF8, pat1 := 0xE0 } : Config).wf6 = false := by decide
theorem test_wf7 : ({ Config.ref8 1 with resetBytes := 0 } : Config).wf7 = false := by decide
theorem test_wf9 :
    ({ Config.ref8 1 with gammaEn := true, gamma := Config.tableOf fun u => 255 - u } : Config).wf9 = false := by
  decide +kernel
theorem test_wf10 :
    ({ Config.ref8 1 with gammaEn := true, gamma := Config.tableOf fun u => max u 1 } : Config).wf10 = false := by
  decide +kernel
theorem test_wf9_unused :
    ({ Config.ref8 1 with gamma := Config.tableOf fun u => 255 - u } : Config).wf = true := by decide
theorem test_wf11 : ({ Config.ref8 1 with resetBytes := 0xFFFFFFFF } : Config).wf11 = false := by decide
theorem test_wf12 : ({ Config.ref8 1 with fBus := 0 } : Config).wf12 = false := by decide

/-- L1.8: `REF3` meets TWF1 to TWF3 with equality. -/
theorem test_ref3_timing : (Config.ref3 4).twf3 ∧ (Config.ref3 4).bitPeriodNs = 1250 := by
  unfold Config.twf3 Config.bitPeriodNs Config.busRate
  rw [show (Config.ref3 4).fBus.toNat = 2400000 by decide, show (Config.ref3 4).R = 15 by decide,
    show (Config.ref3 4).B = 3 by decide]
  norm_num [Config.tResetMinNs]

/-! ### Datapath -/

/-- L2.2. -/
theorem test_clamp :
    ([-2147483648, -11, -1, 0, 1, 128, 254, 255, 256, 2147483647] : List Int).map clamp =
      [0, 0, 0, 0, 1, 128, 254, 255, 255, 255] := by decide

/-- L2.3. -/
theorem test_gam :
    ([0, 1, 10, 15, 16, 64, 128, 200, 254, 255] : List Byte).map (gam (Config.ref8g 1)) =
      [0, 0, 0, 0, 1, 16, 64, 156, 253, 255] := by decide +kernel

/-- L2.4. -/
theorem test_wire : wireBytes (Config.ref8 1) ⟨300, -10, 7⟩ = [0, 255, 7] := by decide

/-- L2.6: `PACK(XB(u))` under `REF3`, groups straddling bytes. -/
theorem test_pack_ref3 :
    ([0x00, 0xFF, 0xB0, 0x0A, 0x01, 0x80, 0x55, 0xAA, 0x0F] : List Byte).map (fun u => pack (xb (Config.ref3 1) u)) =
      [[0x92, 0x49, 0x24], [0xDB, 0x6D, 0xB6], [0xD3, 0x69, 0x24], [0x92, 0x4D, 0x34], [0x92, 0x49, 0x26],
        [0xD2, 0x49, 0x24], [0x9A, 0x69, 0xA6], [0xD3, 0x4D, 0x34], [0x92, 0x4D, 0xB6]] := by decide

/-- L2.6 under `REF8`. -/
theorem test_pack_ref8 :
    pack (xb (Config.ref8 1) 0xB0) = [0xF8, 0xE0, 0xF8, 0xF8, 0xE0, 0xE0, 0xE0, 0xE0] := by decide

/-- L1.7: the end-to-end scenario under `REF3`. -/
theorem test_end_to_end_ref3 :
    encodeFn (Config.ref3 4) [⟨10, 0, 0⟩, ⟨0, 10, 0⟩, ⟨0, 0, 10⟩, ⟨10, 10, 0⟩] =
      [0x92, 0x49, 0x24, 0x92, 0x4D, 0x34, 0x92, 0x49, 0x24, 0x92, 0x4D, 0x34, 0x92, 0x49, 0x24, 0x92, 0x49, 0x24,
        0x92, 0x49, 0x24, 0x92, 0x49, 0x24, 0x92, 0x4D, 0x34, 0x92, 0x4D, 0x34, 0x92, 0x4D, 0x34, 0x92, 0x49, 0x24] ++
        List.replicate 15 0 := by decide +kernel

/-- L2.8 and P4: gamma before expansion, the wire order after it. -/
theorem test_encodeFn_ref8g :
    encodeFn (Config.ref8g 1) [⟨128, 200, 10⟩] =
      [0xF8, 0xE0, 0xE0, 0xF8, 0xF8, 0xF8, 0xE0, 0xE0, 0xE0, 0xF8, 0xE0, 0xE0, 0xE0, 0xE0, 0xE0, 0xE0,
        0xE0, 0xE0, 0xE0, 0xE0, 0xE0, 0xE0, 0xE0, 0xE0] ++ List.replicate 40 0 := by decide +kernel

/-- L2.13: byte `0x92` is clocked as 1, 0, 0, 1, 0, 0, 1, 0. -/
theorem test_wave : wave [0x92] = [true, false, false, true, false, false, true, false] := by decide

/-! ### One step -/

/-- L2.10: the response of `ENCODE (0, 176, 0)` under `REF3`. -/
theorem test_step_encode :
    after (fun t => (t.respQ, t.reqQ)) (step { s3 with reqQ := [0x01000001, 0x00000000, 0x000000B0, 0x00000000] }) =
      some ([0x01000000, 0x00000018, 0x922469D3, 0x49922449, 0x00000024, 0x00000000, 0x00000000, 0x00000000], []) := by
  decide +kernel

/-- L2.10: `ENCODE` with `L = 2` under N = 1 consumes seven words. -/
theorem test_step_encode_mismatch :
    after (fun t => (t.respQ, t.reqQ)) (step { s3 with reqQ := [0x01000002, 0, 0, 0, 0, 0, 0, 0x7F000003] }) =
      some ([0x01000001], [0x7F000003]) := by decide +kernel

/-- L2.11: TRANSMIT of the blank frame under `REF3` logs its `Start` and waits. -/
theorem test_step_transmit :
    after (fun t => (t.phase, t.chanLog, t.respQ, t.line)) (step { s3 with reqQ := [0x02000001, 0, 0, 0] }) =
      some (.busy zero3, [.start zero3], [], .low) := by decide +kernel

/-- L2.11: after `Done(Fail(5))` the response is CHANNEL_WRITE_FAILURE. -/
theorem test_step_complete_failure :
    after (fun t => (t.phase, t.respQ)) (step { busy3 with chanLog := [.start zero3, .done (.fail 5)] }) =
      some (.idle, [0x02000002]) := by decide +kernel

/-- L2.12. -/
theorem test_step_illegal :
    after (fun t => (t.respQ, t.reqQ)) (step { s3 with reqQ := [0x01010001, 0x00000005] }) =
      some ([0x01000003], [0x00000005]) := by decide +kernel

/-- L2.11: `Fail(5)` clocks five bytes, the first bus bit High. -/
theorem test_step_take_up_failure :
    after (fun t => t.xfer.map fun x => (x.outcome, x.left.length, x.left.head?))
      (step { busy3 with chan := [.fail 5] }) = some (some (.fail 5, 40, some true)) := by decide +kernel

/-- A transfer in its middle drives the line. -/
theorem test_step_clock :
    after (fun t => (t.line, t.wire)) (step { busy3 with xfer := some ⟨.ok, [true, false]⟩ }) =
      some (.high, [true]) := by decide +kernel

/-- L2.15: reset while `Busy` with a partial command queued. -/
theorem test_step_reset_while_busy :
    after (fun t => (t.phase, t.reqQ, t.chanLog, t.respQ))
      (step { busy3 with host := [.reset], reqQ := [0x02000001, 0x00000000] }) = some (.idle, [], [], []) := by
  decide +kernel

/-- Duty HD3: closing the channel while `Busy` is no move of the model (41_commands.md R107). -/
theorem test_close_while_busy : (match step { busy3 with host := [.closeChannel] } with
    | .refused r => decide (r = .closeWhileBusy)
    | .next _ => false
    | .fault _ => false) = true := by decide +kernel

/-- 10_state.md R41: a refused configuration has no step. -/
theorem test_refused_configuration : (match step (State.resetWith (Config.ref8 0)) with
    | .refused r => decide (r = .illFormedConfig)
    | .next _ => false
    | .fault _ => false) = true := by decide +kernel

/-! ### The row's own questions -/

theorem test_table_word_encode : decodeTableWord 32 0x01000000 = some (.encode []) := by decide
theorem test_table_word_transmit : decodeTableWord 32 0x02000002 = some (.transmit [Pixel.off, Pixel.off]) := by decide
theorem test_fetch_word_runs :
    step (State.reset.withFetchWord 32 0x02000001) = exec (.transmit [Pixel.off]) State.reset := by rfl

/-! ### The Host's duties -/

/-- The words of BLANK under N = 1 (30_encoding.md R78). -/
def blank1 : List Word := [0x02000001, 0, 0, 0]

/-- `s3` with its channel open, a BLANK answered and the answer read: steps 1 to 3 of the shutdown are done. -/
def blanked3 : State :=
  { s3 with
    link := .opened 2400000, lastCmd := blank1, lastAlone := true, taken := [0x02000000]
    chanLog := [.start zero3, .done .ok], wire := wave zero3 }

/-- `s3` with its channel open, a failed transfer and a successful one after it, both answered and read. -/
def failed3 : State :=
  { s3 with
    link := .opened 2400000, lastCmd := blank1, taken := [0x02000002, 0x02000000]
    chanLog := [.start zero3, .done (.fail 0), .start zero3, .done .ok], wire := wave zero3 }

/-- `blanked3` with the BLANK failed: both closes are the Host's to make. -/
def blankFailed3 : State :=
  { blanked3 with taken := [0x02000002], chanLog := [.start zero3, .done (.fail 0)], wire := [] }

/-- HD3: no TRANSMIT header while the channel is not open; the same word is payload inside a command. -/
theorem test_transmit_needs_open_channel :
    [mayWrite 0x02000001 s3, mayWrite 0x01000001 s3, mayWrite 0x02000001 { s3 with reqQ := [0x01000001] },
      mayWrite 0x02000001 { s3 with link := .opened 1 }, mayWrite 0x02000001 blanked3] =
      [false, true, true, false, true] := by decide

/-- 42_channel_wire.md R108: opened once, at `F_BUS`. -/
theorem test_open_once_at_bus_rate :
    [mayOpen 2400000 s3, mayOpen 1 s3, mayOpen 2400000 blanked3, mayOpen 2400000 (closeChannel .shutDown blanked3),
      mayOpen 2400000 (resetBlock (closeChannel .shutDown blanked3)), mayOpen 2400000 (closeChannel .closed failed3)] =
      [true, false, false, false, true, true] := by decide

/-- 70_reset_and_hazards.md R141: not before BLANK is the last command, was issued alone, is answered and is read. -/
theorem test_shutdown_waits :
    [mayShutDown s3, mayShutDown { blanked3 with reqQ := blank1 }, mayShutDown { blanked3 with respQ := [0x02000000] },
      mayShutDown { blanked3 with lastCmd := [0x01000000] }, mayShutDown { blanked3 with lastAlone := false },
      mayShutDown (resetBlock { blanked3 with respQ := [0x02000000] }), mayShutDown blanked3,
      mayShutDown (resetBlock blanked3), mayShutDown blankFailed3] =
      [false, false, false, false, false, false, true, true, true] := by decide

/-- Duty HD5: a reconnect after a failure, whatever followed it, but with no command outstanding. -/
theorem test_reconnect_after_failure :
    [mayReconnect failed3, mayReconnect (resetBlock failed3), mayReconnect blankFailed3, mayReconnect blanked3,
      mayReconnect { failed3 with reqQ := blank1 }, mayReconnect (openChannel 2400000 (closeChannel .closed failed3))] =
      [true, true, true, false, false, false] := by decide

/-- 70_reset_and_hazards.md R141, step 2: BLANK issued with a response unread is not issued alone. -/
theorem test_blank_waits_for_responses :
    [(writeRequest 0x02000001 s3).lastAlone, (writeRequest 0x02000001 { s3 with respQ := [0x02000000] }).lastAlone,
      (writeRequest 0x02000001 { s3 with reqQ := [0x02000000] }).lastAlone, (writeRequest 0x02000001 busy3).lastAlone] =
      [true, false, false, false] := by decide

/-- 60_exceptions.md R134: the log does not survive the close, and what was observed does. -/
theorem test_close_leaves_configuration :
    after (fun t => (t.chanLog, t.link, t.events, t.responses))
      (step { blankFailed3 with host := [.closeToReconnect] }) =
      some ([], .closed, [.start zero3, .done (.fail 0)], [0x02000002]) := by decide +kernel

/-- Duties HD1 and HD4 at the end: a command cut short, a last command that is not BLANK, a BLANK that a reset lost, a
BLANK that was run before a reset, and an illegal header before BLANK (program P2). -/
theorem test_duties_at_the_end :
    [State.keepsHD1 { s3 with reqQ := [0x02000001, 0] }, State.keepsHD4 { blanked3 with lastCmd := [0x01000000] },
      State.keepsHD4 (resetBlock { blanked3 with reqQ := blank1 }), State.keepsHD4 (resetBlock blanked3),
      State.keepsHD1 { s3 with reqQ := 0x7F000000 :: blank1 }, State.keepsDuties blanked3] =
      [false, false, false, true, true, true] := by decide

/-! ### Witnesses: states and operands that meet the hypotheses of the statements -/

theorem witness_blockMoves : s3.BlockMoves ∧ s3.phase = .idle ∧ busy3.BlockMoves ∧ busy3.phase = .busy zero3 :=
  ⟨⟨⟨by decide, by decide⟩, rfl⟩, rfl, ⟨⟨by decide, by decide⟩, rfl⟩, rfl⟩

theorem witness_inv_idle : s3.Inv := by simp [s3, State.Inv, State.resetWith, logWf, wireOf]

theorem witness_inv_busy : busy3.Inv :=
  ⟨by decide, rfl, by decide, [], rfl, rfl, by decide, .inl rfl⟩

theorem witness_DecodeInvertsEncode : Instr.wf (.transmit [⟨300, -10, 0⟩]) = true := by decide

theorem witness_DecodedWordsAreTheEncoding :
    decode [0x02000000, 0x01000000] = .command (.transmit []) [0x01000000] := by decide

theorem witness_HeaderLegality : legal 0x0100FFFF = true ∧ legal 0x0101FFFF = false := by decide

theorem witness_CommandLengthAndHold :
    (legal 0x01000001 = true ∧ 3 * ((0x01000001 : Word).extractLsb' 0 16).toNat ≤ ([1, 2, 3] : List Word).length) ∧
      legal 0x00000001 = false ∧
      ({ s3 with reqQ := [0x01000001, 1, 2] } : State).BlockMoves ∧
      ([1, 2] : List Word).length < 3 * ((0x01000001 : Word).extractLsb' 0 16).toNat :=
  ⟨by decide, by decide, ⟨⟨by decide, by decide⟩, rfl⟩, by decide⟩

theorem witness_PayloadWordsAreSignedChannels :
    decode ((0x02000001 : Word) :: [0x0000012C, 0xFFFFFFF6, 0x00000000]) = .command (.transmit [⟨300, -10, 0⟩]) [] ∧
      0 < (Instr.transmit [⟨300, -10, 0⟩]).frame.length := by decide

theorem witness_ClampSaturatesAndNeverWraps :
    (-1 : Int) < 0 ∧ (255 : Int) < 256 ∧ (0 : Int) ≤ 0 ∧ (255 : Int) ≤ 255 := by decide

theorem witness_GammaStageIsTableOrIdentity :
    (Config.ref8g 1).gammaEn = true ∧ (Config.ref8 1).gammaEn = false ∧ (Config.ref8g 1).wf = true ∧
      (0 : Byte) ≤ 255 := ⟨rfl, rfl, test_ref8g_wf, by decide⟩

theorem witness_groups : (Config.ref3 1).wf = true ∧ 0 < (Config.ref3 1).B ∧ 2 < (Config.ref3 1).B := by decide

theorem witness_PackPutsFirstBitHighest : (List.replicate 8 true).length = 8 * 1 ∧ 0 < 1 ∧ 7 < 8 := by decide

/-- The last bus bit of the last group of the last pixel, and the first of the first. -/
theorem witness_GroupPositionInBuffer :
    (Frame.blank 2).length = (Config.ref3 2).N ∧ (Frame.blank 2)[1]? = some Pixel.off ∧ 2 < 3 ∧ 7 < 8 ∧
      2 < (Config.ref3 2).B ∧ (Frame.blank 2)[0]? = some Pixel.off := by decide

theorem witness_frames :
    (Frame.blank 1).length = (Config.ref3 1).N ∧ (Config.ref3 1).wf = true ∧
      (List.replicate 24 (7 : Byte)).length = (Config.ref3 1).LB ∧ ([⟨2147483648, 0, 0⟩] : Frame).length ≤ 65535 := by
  decide

theorem witness_EncodeAnswersTheBuffer :
    (Frame.blank 1).length = s3.cfg.N ∧ s3.cfg.wf = true ∧ (Frame.blank 0).length ≠ s3.cfg.N := by decide

theorem witness_TransmitIssuesThenCompletes :
    (Frame.blank 1).length = s3.cfg.N ∧ (Frame.blank 2).length ≠ s3.cfg.N ∧
      ({ busy3 with chanLog := [.start zero3] ++ [.done .ok] } : State).BlockMoves ∧
      ({ busy3 with chanLog := [.start zero3] ++ [.done (.fail 24)] } : State).xfer = none :=
  ⟨by decide, by decide, ⟨⟨by decide, by decide⟩, rfl⟩, rfl⟩

theorem witness_WrongLengthIsConsumedAndRejected :
    Instr.wf (.encode []) = true ∧ (Frame.blank 0).length ≠ s3.cfg.N ∧
      ({ s3 with reqQ := encode (.encode []) ++ [0x02000000] } : State).BlockMoves ∧
      Instr.wf (.transmit [Pixel.off, Pixel.off]) = true ∧ (Frame.blank 2).length ≠ s3.cfg.N :=
  ⟨by decide, by decide, ⟨⟨by decide, by decide⟩, rfl⟩, by decide, by decide⟩

theorem witness_IllegalHeaderIsAnswered :
    ({ s3 with reqQ := [0x01010001] } : State).BlockMoves ∧
      ¬(((0x01010001 : Word).extractLsb' 24 8 = 0x01#8 ∨ (0x01010001 : Word).extractLsb' 24 8 = 0x02#8) ∧
        (0x01010001 : Word).extractLsb' 16 8 = 0#8) :=
  ⟨⟨⟨by decide, by decide⟩, rfl⟩, by decide⟩

theorem witness_CommandsAreStateless : s3.cfg = busy3.cfg ∧ s3 ≠ busy3 := by decide +kernel

theorem witness_StepRunsTheDecodedCommand :
    ({ s3 with reqQ := [0x02000000] } : State).Accepted ∧ decode [0x02000000] = .command (.transmit []) [] ∧
      ({ s3 with reqQ := [0x02000000], host := [.wait] } : State).Accepted :=
  ⟨⟨by decide, by decide⟩, by decide, ⟨by decide, by decide⟩⟩

/-- Each refusal is met, and an accepted state exists. -/
theorem witness_StepStopsOnlyOnRefusals :
    (State.resetWith (Config.ref8 0)).refused = true ∧ s3.refused = false ∧ s3.cfg.wf = true ∧
      (match step { s3 with host := [.write 0x02000001] } with
        | .refused r => decide (r = .transmitOnClosedChannel)
        | .next _ => false
        | .fault _ => false) = true ∧
      (match step { s3 with host := [.openChannel 1] } with
        | .refused r => decide (r = .openOutOfOrder)
        | .next _ => false
        | .fault _ => false) = true ∧
      (match step { s3 with host := [.closeChannel] } with
        | .refused r => decide (r = .closeOutOfOrder)
        | .next _ => false
        | .fault _ => false) = true ∧
      (match step { s3 with host := [.closeToReconnect] } with
        | .refused r => decide (r = .closeOutOfOrder)
        | .next _ => false
        | .fault _ => false) = true ∧
      (match step { busy3 with host := [.closeToReconnect] } with
        | .refused r => decide (r = .closeWhileBusy)
        | .next _ => false
        | .fault _ => false) = true := by decide +kernel

/-- A TRANSMIT header on an open channel, a payload word and an ENCODE header on a closed one, and a response to take. -/
theorem witness_HostWritesAndTakesInAnyPhase :
    ({ blanked3 with host := [.write 0x02000001] } : State).Accepted ∧ blanked3.link = .opened blanked3.cfg.fBus.toNat ∧
      ({ s3 with host := [.write 0x02000001], reqQ := [0x01000001] } : State).Accepted ∧ owed 0 [0x01000001] ≠ 0 ∧
      ({ busy3 with host := [.write 0x01000001] } : State).Accepted ∧
      (0x01000001#32 &&& 0xFFFF0000#32 ≠ 0x02000000#32) ∧
      ({ busy3 with host := [.take], respQ := [0x02000000] } : State).Accepted :=
  ⟨⟨by decide, by decide⟩, by decide, ⟨by decide, by decide⟩, by decide, ⟨by decide, by decide⟩, by decide,
    ⟨by decide, by decide⟩⟩

theorem witness_HostResetRestoresRunTimeState : ({ busy3 with host := [.reset] } : State).Accepted :=
  ⟨by decide, by decide⟩

theorem witness_HostOpensTheChannelAtBusRate :
    ({ s3 with host := [.openChannel s3.cfg.fBus.toNat] } : State).Accepted ∧ s3.link = .closed :=
  ⟨⟨by decide, by decide⟩, by decide⟩

/-- Both closes: the shutdown after a BLANK that succeeded, the reconnect after a failure that a success followed, and
either after a BLANK that failed. -/
theorem witness_CloseLeavesOnlyTheConfiguration :
    ({ blanked3 with host := [.closeChannel] } : State).Accepted ∧ settled blanked3 = true ∧
      blanked3.link = .opened blanked3.cfg.fBus.toNat ∧ blanked3.lastCmd = encode (Instr.blank blanked3.cfg) ∧
      blanked3.lastAlone = true ∧
      ({ failed3 with host := [.closeToReconnect] } : State).Accepted ∧ settled failed3 = true ∧
      failed3.link = .opened failed3.cfg.fBus.toNat ∧ .done (.fail 0) ∈ failed3.chanLog ∧
      settled blankFailed3 = true ∧ blankFailed3.lastCmd = encode (Instr.blank blankFailed3.cfg) ∧
      blankFailed3.lastAlone = true ∧ .done (.fail 0) ∈ blankFailed3.chanLog :=
  ⟨⟨by decide, by decide⟩, by decide, by decide, by decide, by decide, ⟨by decide, by decide⟩, by decide⟩

theorem witness_transfer :
    busy3.xfer = none ∧ busy3.chanLog = [] ++ [.start zero3] ∧ admits (.fail 24) zero3 = true ∧
      admits (.fail 0) zero3 = true ∧ admits .ok zero3 = true ∧ admits (.fail 25) zero3 = false := by decide

theorem witness_ChannelClocksBitsThenReports :
    ({ busy3 with xfer := some ⟨.ok, [true]⟩ } : State).BlockMoves ∧
      ({ busy3 with xfer := some ⟨.ok, [false]⟩ } : State).BlockMoves ∧
      ({ busy3 with xfer := some ⟨.ok, []⟩ } : State).BlockMoves :=
  ⟨⟨⟨by decide, by decide⟩, rfl⟩, ⟨⟨by decide, by decide⟩, rfl⟩, ⟨⟨by decide, by decide⟩, rfl⟩⟩

/-- Ended with no move to come, and with moves to come that write nothing. -/
theorem witness_EndedRunHolds :
    s3.ended = true ∧ s3.cfg.wf = true ∧ s3.host = [] ∧
      ({ blanked3 with host := [.wait, .take, .closeChannel] } : State).ended = true ∧
      after State.ended (step { blanked3 with host := [.closeChannel] }) = some true := by decide +kernel

theorem witness_FramedStreamNeverMeetsIllegal :
    (framed [0x01000001, 0, 0, 0, 0x02000000]).isSome = true ∧
      ({ s3 with reqQ := [0x01000001, 0, 0, 0, 0x02000000] } : State).BlockMoves :=
  ⟨by decide, ⟨⟨by decide, by decide⟩, rfl⟩⟩

/-- A step that answers a next state from a state that meets the invariant, outside a reset. -/
theorem witness_step : step s3 = .next s3 ∧ s3.host.head? ≠ some .reset ∧ core.run 1 s3 = .next s3 := by
  refine ⟨rfl, by decide, rfl⟩

/-- A step that adds a response of one word, and one that adds a whole ENCODE response. -/
theorem witness_HistoryOnlyGrows :
    after State.responses (step { s3 with reqQ := [0x02000000] }) = some [0x02000001] ∧
      (after State.responses (step { s3 with reqQ := [0x01000001, 0, 0, 0] })).map List.length = some 8 ∧
      s3.host.head? ≠ some .reset ∧ s3.host.head? ≠ some .closeChannel ∧ s3.host.head? ≠ some .closeToReconnect := by
  decide +kernel

/-- The link invariant with the channel closed, and with a TRANSMIT queued and one under way on an open channel. -/
theorem witness_EveryStepKeepsTheLinkInvariant :
    s3.LinkInv ∧ State.LinkInv { failed3 with reqQ := blank1 } ∧ ({ busy3 with link := .opened 2400000 } : State).LinkInv ∧
      after State.link (step { failed3 with reqQ := blank1 }) = some (.opened 2400000) := by
  refine ⟨⟨by simp [s3, State.resetWith], ?_⟩, ⟨?_, fun _ => by decide⟩, ⟨?_, fun _ => by decide⟩, by decide +kernel⟩
  · simp [s3, transmitQueued, headersOf, State.resetWith]
  · intro hz h; injection h with h; rw [← h]; decide
  · intro hz h; injection h with h; rw [← h]; decide

theorem witness_EveryQueuedCommandIsAnsweredInOrder :
    (∀ i ∈ ([.encode [Pixel.off], .transmit []] : List Instr), i.wf = true) ∧
      ({ s3 with reqQ := ([.encode [Pixel.off], .transmit []] : List Instr).flatMap encode } : State).BlockMoves ∧
      ({ s3 with reqQ := ([.encode [Pixel.off], .transmit []] : List Instr).flatMap encode } : State).Inv :=
  ⟨by decide, ⟨⟨by decide, by decide⟩, rfl⟩, by simp [s3, State.Inv, State.resetWith, logWf, wireOf]⟩

/-- The first protocol bit of the blank frame, an instant in its high part and one in its low part. -/
theorem witness_ProtocolBitPulseWidths :
    (((Frame.blank 1).flatMap (wireBytes (Config.ref3 1))).flatMap bits)[0]? = some false ∧
      (Config.ref3 1).busTime (0 * (Config.ref3 1).B) ≤ 0 ∧
      (0 : ℚ) < (Config.ref3 1).busTime (0 * (Config.ref3 1).B + (Config.ref3 1).high false) ∧
      (Config.ref3 1).busTime (0 * (Config.ref3 1).B + (Config.ref3 1).high false) ≤
        (Config.ref3 1).busTime 1 ∧
      (Config.ref3 1).busTime 1 < (Config.ref3 1).busTime ((0 + 1) * (Config.ref3 1).B) := by
  refine ⟨by decide, ?_⟩
  rw [show (Config.ref3 1).B = 3 by decide, show (Config.ref3 1).high false = 1 by decide]
  unfold Config.busTime Config.busRate
  rw [show (Config.ref3 1).fBus.toNat = 2400000 by decide]
  norm_num

end Sys2Proof.Tests
end

/-! PROOF. The reset state of 10_state.md R45. -/

namespace Sys2Proof

/-- The Core waits for a header word on an empty request queue (10_state.md R37). -/
@[simp] theorem decode_nil : decode [] = .held := rfl

namespace Machine

/-- A well-formed configuration is not refused (10_state.md R41). -/
theorem resetWith_refused_of_wf {cfg : Config} (h : cfg.wf = true) : (State.resetWith cfg).refused = false := by
  rw [resetWith_refused, h, Bool.not_true]

/-- Settles O38, row by row of R45; only the mark `refused` needs the configuration to be well formed. -/
theorem resetLeavesTheListedValues : Obligations.ResetLeavesTheListedValues := by
  intro cfg hwf
  have hheld : decode (State.resetWith cfg).reqQ = .held := by rw [resetWith_reqQ, decode_nil]
  exact ⟨resetWith_cfg cfg, resetWith_phase cfg, resetWith_reqQ cfg, resetWith_respQ cfg, resetWith_chanLog cfg,
    resetWith_line cfg, resetWith_refused_of_wf hwf, rfl, rfl, hheld⟩

end Machine

end Sys2Proof

/-! PROOF. The encoding of the request words (30_encoding.md section 1): the legality of a header and its spelling as a
mask, the decoder on the words of a well-formed command, and the words of BLANK. -/

namespace Sys2Proof

/-! ### The upper half of a header -/

@[simp] theorem headerOp_upperHalf (h : Word) : headerOp (h &&& 0xFFFF0000#32) = headerOp h := by
  have hmask : (0xFFFF0000#32).extractLsb' 24 8 = BitVec.allOnes 8 := by decide
  rw [headerOp, BitVec.extractLsb'_and, hmask, BitVec.and_allOnes, headerOp]

@[simp] theorem headerRsv_upperHalf (h : Word) : headerRsv (h &&& 0xFFFF0000#32) = headerRsv h := by
  have hmask : (0xFFFF0000#32).extractLsb' 16 8 = BitVec.allOnes 8 := by decide
  rw [headerRsv, BitVec.extractLsb'_and, hmask, BitVec.and_allOnes, headerRsv]

@[simp] theorem headerLen_upperHalf (h : Word) : headerLen (h &&& 0xFFFF0000#32) = 0 := by
  have hmask : (0xFFFF0000#32).extractLsb' 0 16 = 0#16 := by decide
  rw [headerLen, BitVec.extractLsb'_and, hmask, BitVec.and_zero, BitVec.toNat_ofNat, Nat.zero_mod]

/-- Legality is a condition on the upper half alone. -/
@[simp] theorem legal_upperHalf (h : Word) : legal (h &&& 0xFFFF0000#32) = legal h := by
  simp only [legal, headerOp_upperHalf, headerRsv_upperHalf]

/-- The upper half of a legal header is the header of the same opcode with `L = 0`. -/
theorem upperHalf_of_legal {h : Word} (hl : legal h = true) : h &&& 0xFFFF0000#32 = header (headerOp h) 0 := by
  have hup := header_of_legal ((legal_upperHalf h).trans hl)
  rw [headerOp_upperHalf, headerLen_upperHalf] at hup
  exact hup.symm

/-! ### Legality -/

theorem header_encode_zero : header opEncode 0 = 0x01000000#32 := by decide

theorem header_transmit_zero : header opTransmit 0 = 0x02000000#32 := by decide

theorem legal_iff (h : Word) :
    legal h = true ↔ (headerOp h = opEncode ∨ headerOp h = opTransmit) ∧ headerRsv h = 0 := by
  simp only [legal, Bool.and_eq_true, Bool.or_eq_true, beq_iff_eq]

theorem legal_iff_upperHalf (h : Word) :
    legal h = true ↔ h &&& 0xFFFF0000#32 = 0x01000000#32 ∨ h &&& 0xFFFF0000#32 = 0x02000000#32 := by
  constructor
  · intro hl
    obtain ⟨hop | hop, -⟩ := (legal_iff h).1 hl
    · exact .inl (by rw [upperHalf_of_legal hl, hop, header_encode_zero])
    · exact .inr (by rw [upperHalf_of_legal hl, hop, header_transmit_zero])
  · intro hup
    rw [← legal_upperHalf h]
    rcases hup with hup | hup <;> rw [hup] <;> decide

/-- Short of its payload a legal header holds the Core; it is never refused (30_encoding.md R68, R71). -/
theorem decode_ne_illegal {h : Word} (hl : legal h = true) (ws : List Word) (h' : Word) (rest : List Word) :
    decode (h :: ws) ≠ .illegal h' rest := by
  intro hd
  obtain ⟨hws, hl'⟩ := decode_eq_illegal hd
  injection hws with hh
  rw [← hh, hl] at hl'
  cases hl'

/-- Settles O3: both spellings of legality are conditions on the header's upper half, and the decoder branches on
legality before it reads `L`. -/
theorem headerLegality : Obligations.HeaderLegality := fun h ws =>
  ⟨legal_iff h, legal_iff_upperHalf h, fun hl => decode_illegal hl ws, fun hl => decode_ne_illegal hl ws⟩

/-! ### The payload of a decoded command -/

/-- Settles O5: the decoder's one way to answer a command gives the frame as `pixelsOf` of the payload, whose length and
pixels are known. -/
theorem payloadWordsAreSignedChannels : Obligations.PayloadWordsAreSignedChannels := by
  intro h ws rest i hd
  obtain ⟨_, _, hws, hl, hn, rfl, rfl⟩ := decode_eq_command hd
  obtain ⟨rfl, rfl⟩ := List.cons.inj hws
  rw [frame_instrOf, pixelsOf_length hn]
  exact ⟨opcode_instrOf hl _, rfl, rfl, hn, fun p hp => pixelsOf_getElem? hn hp⟩

/-! ### The words of a well-formed command -/

theorem frame_wf_iff (px : Frame) : Frame.wf px = true ↔ px.length ≤ 65535 ∧ px.all Pixel.wf = true := by
  rw [Frame.wf, Bool.and_eq_true, decide_eq_true_eq]

/-- The decoder reads back a well-formed command and stops at its last word. -/
theorem decode_encode {i : Instr} (hi : i.wf = true) (rest : List Word) :
    decode (encode i ++ rest) = .command i rest := by
  obtain ⟨hlen, hpx⟩ := (frame_wf_iff i.frame).1 hi
  have hL : headerLen (header (opcode i) i.frame.length) = i.frame.length := headerLen_header _ hlen
  have hpl : (i.frame.flatMap pixelWords).length = 3 * i.frame.length := pixelWords_payload_length i.frame
  have hn : 3 * headerLen (header (opcode i) i.frame.length) ≤ (i.frame.flatMap pixelWords ++ rest).length := by
    rw [hL, List.length_append, hpl]
    exact Nat.le_add_right _ _
  rw [encode, List.cons_append, decode_command (legal_header i _) hn, hL, headerOp_header, pixelsOf_payload hpx,
    instrOf_opcode, List.drop_left' hpl]

/-! ### BLANK -/

/-- The `L` field stands in the low bits, which the opcode leaves 0. -/
theorem header_eq_or (op : Byte) {L : Nat} (h : L ≤ 65535) : header op L = header op 0 ||| BitVec.ofNat 32 L := by
  apply BitVec.eq_of_toNat_eq
  simp only [header, BitVec.toNat_or, BitVec.toNat_append, BitVec.toNat_ofNat]
  rw [Nat.mod_eq_of_lt (show L < 2 ^ 16 by omega), Nat.mod_eq_of_lt (show L < 2 ^ 32 by omega), Nat.zero_mod,
    Nat.or_zero]

@[simp] theorem blank_length (n : Nat) : (Frame.blank n).length = n := List.length_replicate

/-- The payload of the blank frame is all zero words. -/
theorem blank_payload (n : Nat) : (Frame.blank n).flatMap pixelWords = List.replicate (3 * n) 0 := by
  have hoff : pixelWords Pixel.off = List.replicate 3 0 := by decide
  rw [Frame.blank, List.flatMap_replicate, hoff, List.flatten_replicate_replicate, Nat.mul_comm]

namespace Machine

/-- BLANK is well formed under every configuration, since `STRIP_LEN` has the width of `L`. -/
theorem instr_blank_wf (cfg : Config) : (Instr.blank cfg).wf = true := by
  refine (frame_wf_iff (Frame.blank cfg.N)).2 ⟨(blank_length cfg.N).trans_le (N_le cfg), ?_⟩
  have hoff : Pixel.off.wf = true := by decide
  rw [Frame.blank, List.all_replicate, hoff, ite_self]

theorem assembleLine_blank (cfg : Config) : assembleLine cfg .blank = some (encode (Instr.blank cfg)) :=
  if_pos (instr_blank_wf cfg)

theorem encode_blank (cfg : Config) :
    encode (Instr.blank cfg) = (0x02000000#32 ||| BitVec.ofNat 32 cfg.N) :: List.replicate (3 * cfg.N) 0 := by
  have hhd : header opTransmit (Frame.blank cfg.N).length = 0x02000000#32 ||| BitVec.ofNat 32 cfg.N := by
    rw [blank_length, header_eq_or opTransmit (N_le cfg), header_transmit_zero]
  exact congrArg₂ List.cons hhd (blank_payload cfg.N)

/-- Settles O7: BLANK assembles to the encoding of a well-formed TRANSMIT, which the decoder reads back. -/
theorem blankAssemblesToZeroTransmit : Obligations.BlankAssemblesToZeroTransmit := fun cfg rest =>
  ⟨encode (Instr.blank cfg), assembleLine_blank cfg, encode_blank cfg, decode_encode (instr_blank_wf cfg) rest⟩

end Machine

end Sys2Proof

/-! PROOF. The datapath of 40_datapath.md stage by stage: the operand stages (R80 to R83), the bits of a byte and the
groups of a protocol bit (R84, R85), and the padding of the encode buffer (R90). -/

namespace Sys2Proof.Machine

/-! ### Operand stages -/

/-- Settles O8: one law of `clamp` for each range of the integer. -/
theorem clampSaturatesAndNeverWraps : Obligations.ClampSaturatesAndNeverWraps := fun _ =>
  ⟨clamp_of_neg, clamp_of_large, clamp_toNat⟩

theorem gam_of_on {cfg : Config} (he : cfg.gammaEn = true) (u : Byte) : gam cfg u = cfg.gammaAt u := if_pos he

theorem gam_of_off {cfg : Config} (he : cfg.gammaEn = false) (u : Byte) : gam cfg u = u :=
  if_neg (ne_true_of_eq_false he)

/-- A byte never reaches the default of a lookup in the table's list. -/
theorem gammaAt_eq_getD (cfg : Config) (u : Byte) : cfg.gammaAt u = cfg.gamma.toList.getD u.toNat 0 := by
  have hu : u.toNat < cfg.gamma.toList.length := by rw [Vector.length_toList]; exact u.isLt
  rw [List.getD_eq_getElem _ _ hu, Vector.getElem_toList, Config.gammaAt]

/-- GAM keeps 0: WF10 when the table is in use. -/
theorem gam_zero {cfg : Config} (h : cfg.wf = true) : gam cfg 0 = 0 := by
  cases he : cfg.gammaEn with
  | false => exact gam_of_off he 0
  | true =>
    obtain ⟨_, _, _, _, _, _, _, _, _, h10, _⟩ := (wf_iff cfg).1 h
    rw [Config.wf10, he, Bool.not_true, Bool.false_or, beq_iff_eq] at h10
    rw [gam_of_on he, h10]

/-- GAM keeps the order: WF9 when the table is in use. -/
theorem gam_mono {cfg : Config} (h : cfg.wf = true) {u v : Byte} (huv : u ≤ v) : gam cfg u ≤ gam cfg v := by
  cases he : cfg.gammaEn with
  | false => rwa [gam_of_off he, gam_of_off he]
  | true =>
    obtain ⟨_, _, _, _, _, _, _, _, h9, _⟩ := (wf_iff cfg).1 h
    rw [gam_of_on he, gam_of_on he]
    exact gammaAt_mono he h9 huv

/-- Settles O9: the two branches of GAM, and what WF9 and WF10 ask of the table. -/
theorem gammaStageIsTableOrIdentity : Obligations.GammaStageIsTableOrIdentity := fun cfg =>
  ⟨fun u he => by rw [gam_of_on he, gammaAt_eq_getD], fun u he => gam_of_off he u,
    fun h => ⟨gam_zero h, fun _ _ => gam_mono h⟩⟩

/-- Settles O10: WIRE is this list by definition. -/
theorem wireOrderIsGreenRedBlue : Obligations.WireOrderIsGreenRedBlue := fun _ _ _ _ => rfl

/-! ### Bits and groups -/

/-- Settles O11. -/
theorem bitsAreMostSignificantFirst : Obligations.BitsAreMostSignificantFirst := fun u =>
  ⟨bits_length u, fun _ hi => bits_getElem? u hi⟩

theorem exp_eq_ite (cfg : Config) (t : Bool) : cfg.exp t = if t then cfg.pat1 else cfg.pat0 := by
  cases t <;> rfl

/-- Both patterns of a well-formed configuration are one high run then one low run (WF4, WF5). -/
theorem oneRun_exp {cfg : Config} (h : cfg.wf = true) (t : Bool) : Config.oneRun cfg.B (cfg.exp t) = true := by
  obtain ⟨_, _, _, h4, h5, _⟩ := (wf_iff cfg).1 h
  cases t with
  | false => exact h4
  | true => exact h5

theorem high_false_lt_high_true {cfg : Config} (h : cfg.wf = true) : cfg.high false < cfg.high true := by
  obtain ⟨_, _, _, _, _, h6, _⟩ := (wf_iff cfg).1 h
  rwa [Config.wf6, decide_eq_true_eq] at h6

/-- A legal group is one high pulse of 1 to `B - 1` bus bits, low from there on. -/
theorem group_eq_pulse {cfg : Config} (h : cfg.wf = true) (t : Bool) :
    1 ≤ cfg.high t ∧ cfg.high t < cfg.B ∧
      group cfg t = List.replicate (cfg.high t) true ++ List.replicate (cfg.B - cfg.high t) false :=
  patternBits_of_oneRun (oneRun_exp h t)

theorem group_head? {cfg : Config} (h : cfg.wf = true) (t : Bool) : (group cfg t).head? = some true := by
  obtain ⟨hpos, -, hg⟩ := group_eq_pulse h t
  rw [hg, List.head?_append, List.head?_replicate, if_neg (by omega), Option.some_or]

theorem group_getLast? {cfg : Config} (h : cfg.wf = true) (t : Bool) : (group cfg t).getLast? = some false := by
  obtain ⟨-, hlt, hg⟩ := group_eq_pulse h t
  rw [hg, List.getLast?_append, List.getLast?_replicate, if_neg (by omega), Option.some_or]

/-- A legal group has as many ones as its high run is long. -/
theorem group_count_true {cfg : Config} (h : cfg.wf = true) (t : Bool) : (group cfg t).count true = cfg.high t := by
  obtain ⟨-, -, hg⟩ := group_eq_pulse h t
  simp [hg, List.count_replicate]

/-- Settles O12: the group read entry by entry, and the pulse it is under WF4 to WF6. -/
theorem groupIsThePatternFirstBitFirst : Obligations.GroupIsThePatternFirstBitFirst := by
  intro cfg t
  refine ⟨group_length cfg t, fun i hi => ?_, fun h => ⟨group_head? h t, group_getLast? h t, ?_, ?_⟩⟩
  · rw [← exp_eq_ite]
    exact patternBits_getElem? (cfg.exp t) cfg.B hi
  · rw [group_count_true h, group_count_true h, Nat.add_sub_cancel' (high_false_lt_high_true h).le]
  · exact Nat.sub_pos_of_lt (high_false_lt_high_true h)

/-! ### Padding -/

theorem memRead_append_left (xs ys : List Byte) : memRead (xs ++ ys) 0 xs.length = xs := by
  rw [memRead, List.drop_zero, List.take_left]

theorem memRead_append_right (xs ys : List Byte) : memRead (xs ++ ys) xs.length ys.length = ys := by
  rw [memRead, List.drop_left, List.take_length]

@[simp] theorem pad_length (cfg : Config) : (pad cfg).length = cfg.R := List.length_replicate

theorem encodeFn_length (cfg : Config) (px : Frame) :
    (encodeFn cfg px).length = 3 * cfg.B * px.length + cfg.R := by
  rw [encodeFn, List.length_append, pack_serial_length, pad_length]

/-- The buffer begins with the frame's packed bus bits. -/
theorem memRead_encodeFn_frame (cfg : Config) (px : Frame) :
    memRead (encodeFn cfg px) 0 (3 * cfg.B * px.length) = pack (serial cfg px) := by
  rw [← pack_serial_length cfg px]
  exact memRead_append_left _ _

/-- The buffer ends with the padding. -/
theorem memRead_encodeFn_pad (cfg : Config) (px : Frame) :
    memRead (encodeFn cfg px) (3 * cfg.B * px.length) cfg.R = pad cfg := by
  rw [← pack_serial_length cfg px, ← pad_length cfg]
  exact memRead_append_right _ _

/-- Settles O18: the buffer read in its two parts, the packed bus bits of the frame and the padding. -/
theorem paddingOnceAfterLastPixel : Obligations.PaddingOnceAfterLastPixel := by
  intro cfg px hN
  rw [← hN, memRead_encodeFn_frame, memRead_encodeFn_pad]
  exact ⟨rfl, encodeFn_length cfg px, wave_pack_serial cfg px, wave_replicate_zero cfg.R⟩

end Sys2Proof.Machine

/-! PROOF. The two commands and the illegal headers (41_commands.md R99 to R103): the response words they answer, the
bytes of an ENCODE response, and the steps that run them. -/

namespace Sys2Proof.Machine

/-! ### Response words -/

theorem respHeader_encode_ok : respHeader opEncode .ok = 0x01000000#32 := by decide

theorem respHeader_encode_shapeMismatch : respHeader opEncode .shapeMismatch = 0x01000001#32 := by decide

theorem respHeader_transmit_ok : respHeader opTransmit .ok = 0x02000000#32 := by decide

theorem respHeader_transmit_shapeMismatch : respHeader opTransmit .shapeMismatch = 0x02000001#32 := by decide

theorem respHeader_transmit_channelWriteFailure :
    respHeader opTransmit .channelWriteFailure = 0x02000002#32 := by decide

/-- The three fields of format `S` cover the word, so they determine it (30_encoding.md R72). -/
theorem respHeader_eq_of_fields {ope : Byte} {st : Status} {w : Word} (hope : w.extractLsb' 24 8 = ope)
    (hzero : w.extractLsb' 8 16 = 0) (hst : w.extractLsb' 0 8 = statusCode st) : respHeader ope st = w := by
  have hhigh : w.extractLsb' 24 8 ++ w.extractLsb' 8 16 = w.extractLsb' 8 24 :=
    BitVec.extractLsb'_append_extractLsb'_eq_extractLsb' rfl
  have hall : w.extractLsb' 8 24 ++ w.extractLsb' 0 8 = w.extractLsb' 0 32 :=
    BitVec.extractLsb'_append_extractLsb'_eq_extractLsb' rfl
  rw [respHeader, ← hope, ← hzero, ← hst, hhigh, hall, BitVec.extractLsb'_eq_self]

/-- The answer to an illegal header is its opcode field with code 3 in the low byte. -/
theorem respHeader_illegalCommand (h : Word) :
    respHeader (headerOp h) .illegalCommand = (h &&& 0xFF000000#32) ||| 0x00000003#32 := by
  apply respHeader_eq_of_fields
  · have hmask : (0xFF000000#32).extractLsb' 24 8 = BitVec.allOnes 8 := by decide
    have hcode : (0x00000003#32).extractLsb' 24 8 = 0#8 := by decide
    rw [BitVec.extractLsb'_or, BitVec.extractLsb'_and, hmask, hcode, BitVec.and_allOnes, BitVec.or_zero, headerOp]
  · have hmask : (0xFF000000#32).extractLsb' 8 16 = 0#16 := by decide
    have hcode : (0x00000003#32).extractLsb' 8 16 = 0#16 := by decide
    rw [BitVec.extractLsb'_or, BitVec.extractLsb'_and, hmask, hcode, BitVec.and_zero, BitVec.or_zero]
    rfl
  · have hmask : (0xFF000000#32).extractLsb' 0 8 = 0#8 := by decide
    have hcode : (0x00000003#32).extractLsb' 0 8 = statusCode .illegalCommand := by decide
    rw [BitVec.extractLsb'_or, BitVec.extractLsb'_and, hmask, hcode, BitVec.and_zero, BitVec.zero_or]

/-! ### The bytes of the data words -/

/-- The first data word packs the first four bytes, read as 0 past the buffer's end (30_encoding.md R74). -/
theorem dataWords_of_ne_nil {buf : List Byte} (h : buf ≠ []) :
    dataWords buf =
      (buf.getD 3 0 ++ buf.getD 2 0 ++ buf.getD 1 0 ++ buf.getD 0 0) :: dataWords (buf.drop 4) := by
  match buf with
  | [] => exact absurd rfl h
  | [_] | [_, _] | [_, _, _] | _ :: _ :: _ :: _ :: _ => rfl

/-- Byte `i` of data word `j` is byte `4*j + i` of the buffer; past their ends both are 0. -/
theorem dataWords_byte (buf : List Byte) (j : Nat) {i : Nat} (hi : i < 4) :
    ((dataWords buf).getD j 0).extractLsb' (8 * i) 8 = buf.getD (4 * j + i) 0 := by
  induction j generalizing buf with
  | zero =>
    by_cases hb : buf = []
    · subst hb; simp [dataWords]
    · rw [dataWords_of_ne_nil hb, List.getD_cons_zero, extract_of_packed _ _ _ _ hi]
      interval_cases i <;> rfl
  | succ j ih =>
    by_cases hb : buf = []
    · subst hb; simp [dataWords]
    · rw [dataWords_of_ne_nil hb, List.getD_cons_succ, ih]
      simp only [List.getD_eq_getElem?_getD, List.getElem?_drop]
      congr 2
      omega

/-- The buffer's length fits the response's length word (10_state.md R33, WF11). -/
theorem toNat_ofNat_encodeFn_length {cfg : Config} (hwf : cfg.wf = true) {px : Frame} (hn : px.length = cfg.N) :
    (BitVec.ofNat 32 (encodeFn cfg px).length).toNat = (encodeFn cfg px).length := by
  have hLB : (encodeFn cfg px).length = cfg.LB := by rw [encodeFn_length, hn, Config.LB]
  rw [BitVec.toNat_ofNat, Nat.mod_eq_of_lt (hLB ▸ LB_lt hwf)]

/-! ### The commands by the result of the shape check -/

theorem exec_of_length_ne (i : Instr) {s : State} (hn : i.frame.length ≠ s.cfg.N) :
    exec i s = .next (raiseStatus (opcode i) .shapeMismatch s) := by
  rw [exec_eq, if_pos hn]

theorem exec_encode_of_length {px : Frame} {s : State} (hn : px.length = s.cfg.N) :
    exec (.encode px) s =
      .next (respWrite (BitVec.ofNat 32 (encodeFn s.cfg px).length :: dataWords (encodeFn s.cfg px))
        (raiseStatus opEncode .ok s)) :=
  (exec_eq (.encode px) s).trans (if_neg (not_not_intro hn))

theorem exec_transmit_of_length {px : Frame} {s : State} (hn : px.length = s.cfg.N) :
    exec (.transmit px) s = .next (setPhase (.busy (encodeFn s.cfg px)) (chanWrite (encodeFn s.cfg px) s)) :=
  (exec_eq (.transmit px) s).trans (if_neg (not_not_intro hn))

theorem exec_encode_of_length_ne {px : Frame} {s : State} (hn : px.length ≠ s.cfg.N) :
    exec (.encode px) s = .next { s with respQ := s.respQ ++ [0x01000001#32] } := by
  rw [exec_of_length_ne (.encode px) hn, raiseStatus, respWrite, opcode, respHeader_encode_shapeMismatch]

theorem exec_transmit_of_length_ne {px : Frame} {s : State} (hn : px.length ≠ s.cfg.N) :
    exec (.transmit px) s = .next { s with respQ := s.respQ ++ [0x02000001#32] } := by
  rw [exec_of_length_ne (.transmit px) hn, raiseStatus, respWrite, opcode, respHeader_transmit_shapeMismatch]

/-- Settles O23: the shape check decides between the two answers; the length word and the data words are read back. -/
theorem encodeAnswersTheBuffer : Obligations.EncodeAnswersTheBuffer := by
  intro s px
  refine ⟨exec_encode_of_length_ne, fun hn hwf =>
    ⟨BitVec.ofNat 32 (encodeFn s.cfg px).length, dataWords (encodeFn s.cfg px), ?_,
      toNat_ofNat_encodeFn_length hwf hn, dataWords_length _, fun j i _ hi => dataWords_byte _ j hi⟩⟩
  rw [exec_encode_of_length hn, raiseStatus, respWrite, respWrite, respHeader_encode_ok, List.append_assoc,
    List.singleton_append]

/-! ### The steps that run a command -/

theorem step_of_command {s : State} {i : Instr} {rest : List Word} (hb : s.BlockMoves) (hp : s.phase = .idle)
    (hd : decode s.reqQ = .command i rest) : step s = exec i (consume rest s) := by
  rw [step_of_blockMoves hb, blockStep_of_idle hp, coreStep, hd]

theorem step_of_illegal {s : State} {h : Word} {rest : List Word} (hb : s.BlockMoves) (hp : s.phase = .idle)
    (hd : decode s.reqQ = .illegal h rest) : step s = .next (illegalCommand h (consume rest s)) := by
  rw [step_of_blockMoves hb, blockStep_of_idle hp, coreStep, hd]

/-- After the channel's report the Core answers and is `Idle` (41_commands.md R101). -/
theorem step_of_done {s : State} {buf : List Byte} {o : ChanOutcome} (hb : s.BlockMoves) (hp : s.phase = .busy buf)
    (hx : s.xfer = none) (hl : s.chanLog.getLast? = some (.done o)) :
    step s =
      .next { s with phase := .idle, respQ := s.respQ ++ [respHeader opTransmit (outcomeStatus o)] } := by
  rw [step_of_blockMoves hb, blockStep_of_done hp hx (chanResult_eq_some_iff.2 hl), transmitComplete, raiseStatus,
    respWrite, setPhase]

/-- Before the channel's report no move of the block leaves `Busy` or answers: only the Channel moves. -/
theorem BlockMove.keeps_busy {s t : State} {buf : List Byte} (hm : BlockMove s t) (hp : s.phase = .busy buf)
    (hr : chanResult s.chanLog = none) : t.phase = .busy buf ∧ t.respQ = s.respQ := by
  cases hm with
  | held => exact ⟨hp, rfl⟩
  | illegal _ _ hi | mismatch _ _ hi | encode _ _ hi | issue _ _ hi => cases hi.symm.trans hp
  | takeUp =>
    exact ⟨by rw [takeUp_phase, afterDraw_phase, hp], by rw [takeUp_respQ, afterDraw_respQ]⟩
  | clock | report => exact ⟨hp, rfl⟩
  | complete _ _ _ _ ho => cases ho.symm.trans hr

/-- Settles O24: issue by the result of the shape check, completion after the report, and no answer before it. -/
theorem transmitIssuesThenCompletes : Obligations.TransmitIssuesThenCompletes := by
  refine ⟨fun s px => ⟨exec_transmit_of_length_ne, exec_transmit_of_length⟩, ?_, ?_⟩
  · intro s buf before o hb hp hx hlog
    have hstep := step_of_done hb hp hx (o := o) (by rw [hlog, List.getLast?_concat])
    constructor
    · rintro rfl
      rw [hstep, outcomeStatus, respHeader_transmit_ok]
    · rintro k rfl
      rw [hstep, outcomeStatus, respHeader_transmit_channelWriteFailure]
  · intro s buf hb hp hl
    have hr : chanResult s.chanLog = none :=
      Option.eq_none_iff_forall_ne_some.2 fun o ho => hl o (chanResult_eq_some ho)
    obtain ⟨t, ht, hm⟩ := blockStep_move s
    exact ⟨t, (step_of_blockMoves hb).trans ht, hm.keeps_busy hp hr⟩

/-- Settles O25: the decoder reads the command whole, and its shape check turns it away. -/
theorem wrongLengthIsConsumedAndRejected : Obligations.WrongLengthIsConsumedAndRejected := by
  intro s i rest hb hp hq hi hn
  have hstep : step s = exec i (consume rest s) := step_of_command hb hp (hq ▸ decode_encode hi rest)
  constructor
  · rintro ⟨px, rfl⟩
    exact hstep.trans (exec_encode_of_length_ne hn)
  · rintro ⟨px, rfl⟩
    exact hstep.trans (exec_transmit_of_length_ne hn)

/-- Settles O26: an illegal header is decoded as one word, and the answer echoes its opcode field. -/
theorem illegalHeaderIsAnswered : Obligations.IllegalHeaderIsAnswered := by
  intro s h ws hb hp hq hill
  have hl : legal h = false := Bool.eq_false_iff.2 fun hl => hill ((legal_iff h).1 hl)
  rw [step_of_illegal hb hp (hq ▸ decode_illegal hl ws), illegalCommand, raiseStatus, respHeader_illegalCommand,
    respWrite, consume]

end Sys2Proof.Machine

/-! PROOF. A reset by the Host (70_reset_and_hazards.md R136) and what the block leaves alone while `Busy` (R142). -/

namespace Sys2Proof.Machine

/-! ### Reset -/

/-- A reset does not mark a well-formed configuration (10_state.md R41). -/
theorem resetBlock_refused_of_wf {s : State} (h : s.cfg.wf = true) : (resetBlock s).refused = false := by
  rw [resetBlock_refused, h, Bool.not_true]

/-- Settles O32: the reset is a move of the Host in any phase, and its next state is `resetBlock`, field by field. -/
theorem hostResetRestoresRunTimeState : Obligations.HostResetRestoresRunTimeState := by
  intro s ms ha hh
  have hwf : s.cfg.wf = true := ha.2
  exact ⟨_, step_of_hostMove ha hh, resetBlock_cfg _, resetBlock_phase _, resetBlock_reqQ _, resetBlock_respQ _,
    resetBlock_chanLog _, resetBlock_line _, resetBlock_refused_of_wf hwf⟩

/-! ### Busy -/

/-- In `Busy` a move of the block stays there with the queue unread, logging nothing or the channel's report, or it
completes TRANSMIT: the moves that consume words or start a transfer are those of `Idle`. -/
theorem BlockMove.cases_of_busy {s t : State} {buf : List Byte} (hm : BlockMove s t) (hp : s.phase = .busy buf) :
    (t.phase = s.phase ∧ t.reqQ = s.reqQ ∧
      (t.chanLog = s.chanLog ∨ ∃ o, t.chanLog = s.chanLog ++ [.done o])) ∨
    ∃ o, s.chanLog.getLast? = some (.done o) ∧ t = transmitComplete o s := by
  cases hm with
  | illegal _ _ hi | mismatch _ _ hi | encode _ _ hi | issue _ _ hi => cases hi.symm.trans hp
  | held => exact .inl ⟨rfl, rfl, .inl rfl⟩
  | takeUp =>
    exact .inl ⟨by rw [takeUp_phase, afterDraw_phase], by rw [takeUp_reqQ, afterDraw_reqQ],
      .inl (by rw [takeUp_chanLog, afterDraw_chanLog])⟩
  | clock _ o b left =>
    exact .inl ⟨clockBit_phase o b left s, clockBit_reqQ o b left s, .inl (clockBit_chanLog o b left s)⟩
  | report _ o => exact .inl ⟨report_phase o s, report_reqQ o s, .inr ⟨o, report_chanLog o s⟩⟩
  | complete _ o _ _ hr => exact .inr ⟨o, chanResult_eq_some hr, rfl⟩

/-- Settles O33: the block's move stays in `Busy` or is the completion, which needs the report in the log. -/
theorem busyReadsNoRequestAndStartsNothing : Obligations.BusyReadsNoRequestAndStartsNothing := by
  intro s buf hb hp
  obtain ⟨t, ht, hm⟩ := blockStep_move s
  refine ⟨t, (step_of_blockMoves hb).trans ht, ?_⟩
  obtain ⟨hphase, hreq, hlog⟩ | ⟨o, hdone, rfl⟩ := hm.cases_of_busy hp
  · exact ⟨hreq, hlog, .inl (hphase.trans hp)⟩
  · exact ⟨transmitComplete_reqQ o s, .inl (transmitComplete_chanLog o s),
      .inr ⟨transmitComplete_phase o s, o, hdone⟩⟩

end Sys2Proof.Machine

/-! PROOF. Decoding and encoding as inverses, and the framing of the request stream (30_encoding.md section 1; 41_commands.md
section 1). -/

namespace Sys2Proof

/-- Settles O1, by the decoder's law on the words of a well-formed command. -/
theorem decodeInvertsEncode : Obligations.DecodeInvertsEncode := fun _ rest hi => decode_encode hi rest

theorem headerLen_le (h : Word) : headerLen h ≤ 65535 := Nat.le_of_lt_succ (h.extractLsb' 0 16).isLt

/-- A decoded command is well formed: `L` has 16 bits, and a payload word denotes a channel value in range. -/
theorem wf_of_decode {i : Instr} {ws rest : List Word} (h : decode ws = .command i rest) : i.wf = true := by
  obtain ⟨hd, pl, -, -, hn, rfl, -⟩ := decode_eq_command h
  rw [Instr.wf, frame_instrOf, frame_wf_iff, pixelsOf_length hn]
  exact ⟨headerLen_le hd, pixelsOf_wf _ _⟩

/-- The words consumed are the encoding: a legal header is built back from its fields, and the payload from its pixels. -/
theorem eq_encode_append_of_decode {i : Instr} {ws rest : List Word} (h : decode ws = .command i rest) :
    ws = encode i ++ rest := by
  obtain ⟨hd, pl, rfl, hl, hn, rfl, rfl⟩ := decode_eq_command h
  rw [encode, opcode_instrOf hl, frame_instrOf, pixelsOf_length hn, header_of_legal hl, payload_pixelsOf hn,
    List.cons_append, List.take_append_drop]

/-- Settles O2. -/
theorem decodedWordsAreTheEncoding : Obligations.DecodedWordsAreTheEncoding := fun _ _ _ h =>
  ⟨wf_of_decode h, eq_encode_append_of_decode h⟩

/-- Settles O6: six closed word lists. -/
theorem wordsOfTheSpecDecode : Obligations.WordsOfTheSpecDecode := by
  unfold Obligations.WordsOfTheSpecDecode
  decide

namespace Machine

/-- With no complete command queued the Core holds (10_state.md R37). -/
theorem step_of_held {s : State} (hb : s.BlockMoves) (hp : s.phase = .idle) (hd : decode s.reqQ = .held) :
    step s = .next s := by
  rw [step_of_blockMoves hb, blockStep_of_idle hp, coreStep, hd]

/-- Settles O4: the decoder compares the words queued with the header's `L`. -/
theorem commandLengthAndHold : Obligations.CommandLengthAndHold := by
  refine ⟨fun h ws => ⟨fun hl hn => ⟨_, decode_command hl hn⟩, fun hl => decode_illegal hl ws⟩, ?_⟩
  intro s h ws hb hp hq hl hn
  exact step_of_held hb hp (hq ▸ decode_held hl hn)

end Machine

end Sys2Proof

/-! PROOF. The encode buffer bit by bit: the packing stage, the position of each group and of each pixel, and the laws of the
buffer as a whole (20_memory.md section 1; 40_datapath.md sections 1 and 2). -/

namespace Sys2Proof.Machine

/-! ### Groups and packed bytes -/

/-- Settles O13: WF4 and WF5 give the pulse, WF6 the order of the two high runs. -/
theorem legalGroupIsOneHighPulse : Obligations.LegalGroupIsOneHighPulse := by
  intro cfg t h
  obtain ⟨hpos, hlt, hg⟩ := group_eq_pulse h t
  exact ⟨hpos, hlt, high_false_lt_high_true h, hg⟩

/-- Bus bit `o` of a waveform is bit `7 - o % 8` of byte `o / 8`; past their ends both are 0. -/
theorem getLsbD_eq_wave (buf : List Byte) (o : Nat) :
    (buf.getD (o / 8) 0).getLsbD (7 - o % 8) = (wave buf).getD o false := by
  rw [List.getD_eq_getElem?_getD, List.getD_eq_getElem?_getD]
  cases hu : buf[o / 8]? with
  | none =>
    have hlen : buf.length ≤ o / 8 := List.getElem?_eq_none_iff.1 hu
    rw [List.getElem?_eq_none (by rw [wave_length]; omega)]
    simp
  | some u =>
    have hw := getLsbD_of_wave hu (Nat.mod_lt o (by decide))
    rw [Nat.div_add_mod] at hw
    rw [hw]
    rfl

/-- Settles O14: the waveform of the packed bits is those bits. -/
theorem packPutsFirstBitHighest : Obligations.PackPutsFirstBitHighest := by
  intro l n hl
  refine ⟨pack_length hl, fun j i _ hi => ?_⟩
  have hbit := getLsbD_eq_wave (pack l) (8 * j + i)
  rwa [wave_pack hl, show (8 * j + i) / 8 = j by omega, show (8 * j + i) % 8 = i by omega] at hbit

/-- Settles O15. -/
theorem encodedLengthLaw : Obligations.EncodedLengthLaw := fun cfg px hN => by
  rw [encodeFn_length, hN]

theorem encodeFn_length_eq_LB {cfg : Config} {px : Frame} (hN : px.length = cfg.N) :
    (encodeFn cfg px).length = cfg.LB := by
  rw [encodeFn_length, hN, Config.LB]

/-! ### Positions in the buffer -/

/-- Bit `i` of wire channel `c` of pixel `p` is protocol bit `(3p + c)*8 + (7 - i)`. -/
theorem protocolBit_getElem? (cfg : Config) {px : Frame} {p c i : Nat} {q : Pixel} (hq : px[p]? = some q)
    (hc : c < 3) (hi : i < 8) :
    ((px.flatMap (wireBytes cfg)).flatMap bits)[(3 * p + c) * 8 + (7 - i)]? =
      some (((wireBytes cfg q).getD c 0).getLsbD i) := by
  have hbyte : (px.flatMap (wireBytes cfg))[3 * p + c]? = some ((wireBytes cfg q).getD c 0) := by
    rw [flatMap_getElem?_of_const _ 3 (wireBytes_length cfg) px hq hc, List.getD_eq_getElem _ _ hc,
      List.getElem?_eq_getElem hc]
  rw [Nat.mul_comm, flatMap_getElem?_of_const _ 8 bits_length _ hbyte (by omega), bits_getElem? _ (by omega),
    show 7 - (7 - i) = i by omega]

/-- The group of protocol bit `k` begins at bus bit `k*B`. -/
theorem wave_encodeFn_getElem?_group {cfg : Config} {px : Frame} {k j : Nat} {b : Bool}
    (hk : ((px.flatMap (wireBytes cfg)).flatMap bits)[k]? = some b) (hj : j < cfg.B) :
    (wave (encodeFn cfg px))[k * cfg.B + j]? = (group cfg b)[j]? := by
  have hg := flatMap_getElem?_of_const _ cfg.B (group_length cfg) _ hk hj
  rw [← serial_eq_groups, Nat.mul_comm] at hg
  have hlt : k * cfg.B + j < (serial cfg px).length := by
    rw [List.getElem?_eq_getElem (show j < (group cfg b).length by rwa [group_length])] at hg
    exact (List.getElem?_eq_some_iff.1 hg).1
  rw [wave_encodeFn, List.getElem?_append_left hlt, hg]

/-- Protocol bit `k < 24*N` ends before the padding begins. -/
theorem groupPosition_lt {k j B n : Nat} (hk : k < 24 * n) (hj : j < B) : (k * B + j) / 8 < 3 * B * n := by
  have hle : (k + 1) * B ≤ 24 * n * B := Nat.mul_le_mul_right B hk
  have hring : 24 * n * B = 8 * (3 * B * n) := by ring
  rw [Nat.div_lt_iff_lt_mul (by decide)]
  rw [Nat.succ_mul] at hle
  omega

/-- Settles O16: the byte and the bit of bus bit `k*B + j`, which belongs to the group of protocol bit `k`. -/
theorem groupPositionInBuffer : Obligations.GroupPositionInBuffer := by
  intro cfg px p c i j q hN hq hc hi hj k o
  have hp : p < px.length := (List.getElem?_eq_some_iff.1 hq).1
  refine ⟨groupPosition_lt (by omega) hj, ?_⟩
  rw [getLsbD_eq_wave, List.getD_eq_getElem?_getD, List.getD_eq_getElem?_getD,
    wave_encodeFn_getElem?_group (protocolBit_getElem? cfg hq hc hi) hj]

theorem memRead_middle (xs ys zs : List Byte) : memRead (xs ++ ys ++ zs) xs.length ys.length = ys := by
  rw [memRead, List.append_assoc, List.drop_left, List.take_left]

/-- The packed bus bits of a frame go over its parts. -/
theorem pack_serial_append (cfg : Config) (xs ys : Frame) :
    pack (serial cfg (xs ++ ys)) = pack (serial cfg xs) ++ pack (serial cfg ys) := by
  rw [serial_append, pack_append (serial_length cfg xs)]

theorem serial_singleton (cfg : Config) (q : Pixel) : serial cfg [q] = (wireBytes cfg q).flatMap (xb cfg) := by
  rw [serial, List.flatMap_singleton]

/-- Settles O17: the frame is cut before and after the pixel, and every part is a whole number of bytes. -/
theorem pixelOwnsItsBytes : Obligations.PixelOwnsItsBytes := by
  intro cfg px p q hq
  obtain ⟨hp, rfl⟩ := List.getElem?_eq_some_iff.1 hq
  have hpre : (pack (serial cfg (px.take p))).length = 3 * cfg.B * p := by
    rw [pack_serial_length, List.length_take, Nat.min_eq_left hp.le]
  have hmid : (pack (serial cfg [px[p]])).length = 3 * cfg.B := by
    rw [pack_serial_length, List.length_singleton, Nat.mul_one]
  have hsplit : px = px.take p ++ ([px[p]] ++ px.drop (p + 1)) := by
    rw [List.singleton_append, List.getElem_cons_drop, List.take_append_drop]
  have hbuf : encodeFn cfg px =
      pack (serial cfg (px.take p)) ++ pack (serial cfg [px[p]]) ++
        (pack (serial cfg (px.drop (p + 1))) ++ pad cfg) := by
    conv_lhs => rw [encodeFn, hsplit, pack_serial_append, pack_serial_append]
    simp only [List.append_assoc]
  rw [hbuf, ← hpre, ← hmid, memRead_middle, serial_singleton]

/-! ### The buffer as a whole -/

/-- A write at the buffer's start and one after it, to its end, leave nothing of what it held. -/
theorem memWrite_memWrite_cover {fresh xs ys : List Byte} (h : fresh.length = xs.length + ys.length) :
    memWrite (memWrite fresh 0 xs) xs.length ys = xs ++ ys := by
  have hend : (xs ++ fresh.drop xs.length).length = xs.length + ys.length := by
    rw [List.length_append, List.length_drop]
    omega
  rw [memWrite, memWrite, List.take_zero, List.nil_append, Nat.zero_add, List.take_left, ← hend, List.drop_length,
    List.append_nil]

/-- Settles O19: the two writes are as long as the buffer. -/
theorem everyBufferByteIsWritten : Obligations.EveryBufferByteIsWritten := by
  intro cfg px fresh hN hfresh
  have hdata : (pack (serial cfg px)).length = 3 * cfg.B * cfg.N := by rw [pack_serial_length, hN]
  rw [← hdata, memWrite_memWrite_cover (by rw [hdata, pad_length, hfresh, Config.LB]), encodeFn]

/-- A black pixel's wire bytes are 0, with gamma on or off (10_state.md R33, WF10). -/
theorem wireBytes_off {cfg : Config} (h : cfg.wf = true) : wireBytes cfg Pixel.off = List.replicate 3 0 := by
  have hprep : prep cfg 0 = 0 := gam_zero h
  simp only [wireBytes, Pixel.off, hprep]
  rfl

/-- Every protocol bit of the blank frame is 0. -/
theorem protocolBits_blank {cfg : Config} (h : cfg.wf = true) (n : Nat) :
    ((Frame.blank n).flatMap (wireBytes cfg)).flatMap bits = List.replicate (24 * n) false := by
  have hbits : bits 0 = List.replicate 8 false := rfl
  rw [Frame.blank, List.flatMap_replicate, wireBytes_off h, List.flatten_replicate_replicate, List.flatMap_replicate,
    hbits, List.flatten_replicate_replicate]
  congr 1
  omega

/-- The waveform of the all-zero frame (40_datapath.md section 2). -/
theorem wave_encodeFn_blank {cfg : Config} (h : cfg.wf = true) (n : Nat) :
    wave (encodeFn cfg (Frame.blank n)) =
      (List.replicate (24 * n) (group cfg false)).flatten ++ List.replicate (8 * cfg.R) false := by
  rw [wave_encodeFn, serial_eq_groups, protocolBits_blank h, List.flatMap_replicate]

/-- Settles O20. -/
theorem allZeroFrameIsZeroGroups : Obligations.AllZeroFrameIsZeroGroups := fun cfg h =>
  wave_encodeFn_blank h cfg.N

/-- A saturated value has a payload word. -/
theorem channelInRange_saturate (v : Int) : channelInRange (saturate v) = true := by
  rw [channelInRange, decide_eq_true_eq]
  unfold saturate
  omega

/-- Saturation stays outside 0..255 where it moves a value at all, so CLAMP does not see it (40_datapath.md R80). -/
theorem clamp_saturate (v : Int) : clamp (saturate v) = clamp v := by
  rcases lt_or_ge v 0 with hneg | hnonneg
  · rw [clamp_of_neg hneg, clamp_of_neg (by unfold saturate; omega)]
  · rcases lt_or_ge 255 v with hlarge | hsmall
    · rw [clamp_of_large hlarge, clamp_of_large (by unfold saturate; omega)]
    · rw [show saturate v = v by unfold saturate; omega]

theorem wireBytes_saturatePixel (cfg : Config) (p : Pixel) : wireBytes cfg (saturatePixel p) = wireBytes cfg p := by
  simp only [wireBytes, saturatePixel, prep, clamp_saturate]

theorem wf_saturatePixel (p : Pixel) : (saturatePixel p).wf = true := by
  simp only [Pixel.wf, saturatePixel, channelInRange_saturate, Bool.and_self]

/-- Settles O21: every saturated pixel has payload words, and its wire bytes are those of the pixel before. -/
theorem saturationDoesNotChangeTheBuffer : Obligations.SaturationDoesNotChangeTheBuffer := by
  intro cfg px hlen
  constructor
  · refine (frame_wf_iff _).2 ⟨by rwa [List.length_map], ?_⟩
    rw [List.all_map, List.all_eq_true]
    exact fun p _ => wf_saturatePixel p
  · simp only [encodeFn, serial, List.flatMap_map, wireBytes_saturatePixel]

end Sys2Proof.Machine

/-! PROOF. The two invariants of every step: the channel's link under the Host's duties (41_commands.md R107, HD3;
42_channel_wire.md R108), and phase, log, line and wire (10_state.md R36, R39, R40; 42_channel_wire.md R115). Each is kept by
the block's moves, and then by every move of the Host. -/

namespace Sys2Proof.Machine

/-! ### The link -/

/-- A TRANSMIT is queued or under way, so the Host's duties ask for an open channel. -/
def State.NeedsLink (s : State) : Prop := transmitQueued s.reqQ ∨ ∃ buf, s.phase = .busy buf

theorem linkInv_iff (s : State) :
    s.LinkInv ↔ (∀ hz, s.link = .opened hz → hz = s.cfg.fBus.toNat) ∧
      (s.NeedsLink → s.link = .opened s.cfg.fBus.toNat) :=
  Iff.rfl

theorem not_needsLink {s : State} (hp : s.phase = .idle) (hq : s.reqQ = []) : ¬ s.NeedsLink := by
  simp [State.NeedsLink, transmitQueued, headersOf, hp, hq]

/-- Where the link and its rate stay and no new TRANSMIT comes, the link invariant stays. -/
theorem State.LinkInv.of_same_link {s t : State} (h : s.LinkInv) (hlink : t.link = s.link) (hcfg : t.cfg = s.cfg)
    (hneed : t.NeedsLink → s.NeedsLink) : t.LinkInv := by
  obtain ⟨hrate, hopen⟩ := (linkInv_iff s).1 h
  rw [linkInv_iff, hlink, hcfg]
  exact ⟨hrate, fun hn => hopen (hneed hn)⟩

/-- With no TRANSMIT queued or under way the link invariant is about the rate alone. -/
theorem State.LinkInv.of_not_needsLink {s : State} (hrate : ∀ hz, s.link = .opened hz → hz = s.cfg.fBus.toNat)
    (hp : s.phase = .idle) (hq : s.reqQ = []) : s.LinkInv :=
  ⟨hrate, fun hn => absurd hn (not_needsLink hp hq)⟩

theorem transmitQueued_of_command {ws rest : List Word} {i : Instr} (hd : decode ws = .command i rest)
    (hr : transmitQueued rest) : transmitQueued ws := by
  obtain ⟨hd', hws, -⟩ := headersOf_command hd
  obtain ⟨w, hw, hst⟩ := hr
  exact ⟨w, by rw [hws]; exact List.mem_cons_of_mem _ hw, hst⟩

theorem transmitQueued_of_illegal {ws rest : List Word} {h : Word} (hd : decode ws = .illegal h rest)
    (hr : transmitQueued rest) : transmitQueued ws := by
  obtain ⟨w, hw, hst⟩ := hr
  exact ⟨w, by rw [headersOf_illegal hd]; exact List.mem_cons_of_mem _ hw, hst⟩

theorem transmitQueued_of_transmit {ws rest : List Word} {px : Frame} (hd : decode ws = .command (.transmit px) rest) :
    transmitQueued ws := by
  obtain ⟨h, hws, hst⟩ := headersOf_command hd
  exact ⟨h, by rw [hws]; exact List.mem_cons_self, hst.2 ⟨px, rfl⟩⟩

/-- A written word begins a TRANSMIT only as a header at a command boundary. -/
theorem transmitQueued_append {ws : List Word} {w : Word} (h : transmitQueued (ws ++ [w])) :
    transmitQueued ws ∨ owed 0 ws = 0 ∧ startsTransmit w = true := by
  obtain ⟨v, hv, hst⟩ := h
  rw [headersOf_append, List.mem_append] at hv
  rcases hv with hv | hv
  · exact .inl ⟨v, hv, hst⟩
  · cases ho : owed 0 ws with
    | zero =>
      rw [ho, headersOf, headersOf, List.mem_singleton] at hv
      exact .inr ⟨rfl, hv ▸ hst⟩
    | succ n => rw [ho, headersOf, headersOf] at hv; cases hv

/-- No move of the Core or the Channel touches the link or the configuration. -/
theorem BlockMove.keeps_link_cfg {s t : State} (hm : BlockMove s t) : t.link = s.link ∧ t.cfg = s.cfg := by
  cases hm with
  | takeUp => exact ⟨by rw [takeUp_link, afterDraw_link], by rw [takeUp_cfg, afterDraw_cfg]⟩
  | held | illegal | mismatch | encode | issue | clock | report | complete => exact ⟨rfl, rfl⟩

/-- A TRANSMIT that is under way after a move of the block was queued or under way before it. -/
theorem BlockMove.needsLink {s t : State} (hm : BlockMove s t) (hn : t.NeedsLink) : s.NeedsLink := by
  cases hm with
  | held => exact hn
  | illegal h rest hp hd => exact hn.imp_left (transmitQueued_of_illegal hd)
  | mismatch i rest hp hd => exact hn.imp_left (transmitQueued_of_command hd)
  | encode px rest hp hd => exact hn.imp_left (transmitQueued_of_command hd)
  | issue px rest hp hd => exact .inl (transmitQueued_of_transmit hd)
  | takeUp buf hp | clock buf _ _ _ hp | report buf _ hp | complete buf _ hp => exact .inr ⟨buf, hp⟩

theorem BlockMove.keeps_linkInv {s t : State} (hm : BlockMove s t) (h : s.LinkInv) : t.LinkInv :=
  h.of_same_link hm.keeps_link_cfg.1 hm.keeps_link_cfg.2 hm.needsLink

/-- A write that duty HD3 allows: a TRANSMIT is begun only on a channel open at `F_BUS`. -/
theorem writeRequest_keeps_linkInv {w : Word} {s : State} (hm : mayWrite w s = true) (h : s.LinkInv) :
    (writeRequest w s).LinkInv := by
  obtain ⟨hrate, hopen⟩ := (linkInv_iff s).1 h
  refine (linkInv_iff _).2 ⟨hrate, fun hn => ?_⟩
  rcases hn with hq | hbusy
  · rcases transmitQueued_append hq with hq | ⟨howed, hst⟩
    · exact hopen (.inl hq)
    · rcases (mayWrite_iff w s).1 hm with hlink | hne | hne
      · exact hlink
      · exact absurd howed hne
      · exact absurd ((startsTransmit_iff w).1 hst) hne
  · exact hopen (.inr hbusy)

/-- Settles O52: after reset the channel is closed and nothing is queued. -/
theorem resetMeetsTheLinkInvariant : Obligations.ResetMeetsTheLinkInvariant := fun cfg =>
  .of_not_needsLink (fun _ hl => nomatch hl) (resetWith_phase cfg) (resetWith_reqQ cfg)

/-- Settles O53, by the moves of a step. A reset and a close leave the queue empty, an open is at `F_BUS`, and only a
write can begin a TRANSMIT. -/
theorem everyStepKeepsTheLinkInvariant : Obligations.EveryStepKeepsTheLinkInvariant := by
  intro s t h hstep
  obtain ⟨-, hmove⟩ := step_next hstep
  have hrate : ∀ hz, s.link = .opened hz → hz = s.cfg.fBus.toNat := h.1
  cases hmove with
  | block t _ hm => exact hm.keeps_linkInv h
  | wait t ms _ hm => exact hm.keeps_linkInv h
  | write w ms _ hm => exact writeRequest_keeps_linkInv hm h
  | take ms => exact h
  | reset ms => exact .of_not_needsLink (fun hz hl => hrate hz (afterReset_eq_opened.1 hl)) rfl rfl
  | openChannel hz ms _ hm =>
    obtain ⟨-, rfl⟩ := (mayOpen_iff hz s).1 hm
    exact ⟨fun _ hl => (Link.opened.inj hl).symm, fun _ => rfl⟩
  | shutDown ms | reconnect ms => exact .of_not_needsLink (fun _ hl => nomatch hl) rfl rfl

/-! ### Phase, log, line and wire -/

/-- The invariant in `Idle`. -/
theorem inv_iff_of_idle {s : State} (hp : s.phase = .idle) :
    s.Inv ↔ s.refused = (!s.cfg.wf) ∧ logWf s.cfg s.past = true ∧ s.xfer = none ∧ s.line = .low ∧
      logWf s.cfg s.chanLog = true ∧ s.wire = wireOf s.past ++ wireOf s.chanLog := by
  simp only [State.Inv, hp]

/-- The invariant while a transfer is being clocked. -/
theorem inv_iff_of_clocking {s : State} {buf : List Byte} {x : Transfer} (hp : s.phase = .busy buf)
    (hx : s.xfer = some x) :
    s.Inv ↔ s.refused = (!s.cfg.wf) ∧ logWf s.cfg s.past = true ∧ buf.length = s.cfg.LB ∧
      ∃ before, logWf s.cfg before = true ∧ s.chanLog = before ++ [.start buf] ∧ admits x.outcome buf = true ∧
        ∃ sent, wave (clocked x.outcome buf) = sent ++ x.left ∧ s.line = levelAfter sent ∧
          s.wire = wireOf s.past ++ wireOf before ++ sent := by
  simp only [State.Inv, hp, hx]

/-- The invariant in `Busy` before a transfer is taken up and after it is reported. -/
theorem inv_iff_of_waiting {s : State} {buf : List Byte} (hp : s.phase = .busy buf) (hx : s.xfer = none) :
    s.Inv ↔ s.refused = (!s.cfg.wf) ∧ logWf s.cfg s.past = true ∧ buf.length = s.cfg.LB ∧
      ∃ before, logWf s.cfg before = true ∧ s.line = .low ∧ s.wire = wireOf s.past ++ wireOf s.chanLog ∧
        (s.chanLog = before ++ [.start buf] ∨
          ∃ o, admits o buf = true ∧ s.chanLog = before ++ [.start buf, .done o]) := by
  simp only [State.Inv, hp, hx]

@[simp] theorem wireOf_nil : wireOf [] = [] := rfl

/-- A transfer not yet reported puts nothing of its own on the wire of the log. -/
theorem wireOf_append_start {cfg : Config} {log : List ChanEvent} (h : logWf cfg log = true) (buf : List Byte) :
    wireOf (log ++ [.start buf]) = wireOf log := by
  rw [wireOf_append _ le_rfl h, show wireOf [.start buf] = [] from rfl, List.append_nil]

/-- A reported transfer puts the waveform of its clocked bytes on the wire (42_channel_wire.md R115). -/
theorem wireOf_append_transfer {cfg : Config} {log : List ChanEvent} (h : logWf cfg log = true) (buf : List Byte)
    (o : ChanOutcome) : wireOf (log ++ [.start buf, .done o]) = wireOf log ++ wave (clocked o buf) := by
  rw [wireOf_append _ le_rfl h, show wireOf [.start buf, .done o] = wave (clocked o buf) ++ [] from rfl,
    List.append_nil]

theorem levelAfter_append (sent : List Bool) (b : Bool) : levelAfter (sent ++ [b]) = Level.ofBit b := by
  rw [levelAfter, List.getLast?_concat]

/-- TRANSMIT's issue: the log of reported transfers gets the `Start` of a buffer of `LB` bytes. -/
theorem issue_keeps_inv {s : State} {px : Frame} (rest : List Word) (hp : s.phase = .idle)
    (hn : px.length = s.cfg.N) (h : s.Inv) :
    (setPhase (.busy (encodeFn s.cfg px)) (chanWrite (encodeFn s.cfg px) (consume rest s))).Inv := by
  obtain ⟨href, hpast, hx, hline, hlog, hwire⟩ := (inv_iff_of_idle hp).1 h
  refine (inv_iff_of_waiting (s := setPhase _ (chanWrite _ (consume rest s))) (setPhase_phase _ _) hx).2
    ⟨href, hpast, encodeFn_length_eq_LB hn, s.chanLog, hlog, hline, ?_, .inl rfl⟩
  exact hwire.trans (congrArg (wireOf s.past ++ ·) (wireOf_append_start hlog _).symm)

/-- The Channel takes up the transfer of the log's last `Start`, with nothing of it sent. -/
theorem takeUp_keeps_inv {s : State} {buf : List Byte} (hp : s.phase = .busy buf) (hx : s.xfer = none)
    (hl : s.chanLog.getLast? = some (.start buf)) (h : s.Inv) : (takeUp buf (drawn buf s) (afterDraw s)).Inv := by
  obtain ⟨href, hpast, hlen, before, hbefore, hline, hwire, hlog | ⟨o, -, hlog⟩⟩ := (inv_iff_of_waiting hp hx).1 h
  · rw [hlog, wireOf_append_start hbefore] at hwire
    refine (inv_iff_of_clocking (buf := buf) (by rw [takeUp_phase, afterDraw_phase, hp]) (takeUp_xfer _ _ _)).2 ?_
    simp only [takeUp_refused, takeUp_cfg, takeUp_past, takeUp_chanLog, takeUp_line, takeUp_wire, afterDraw_refused,
      afterDraw_cfg, afterDraw_past, afterDraw_chanLog, afterDraw_line, afterDraw_wire]
    exact ⟨href, hpast, hlen, before, hbefore, hlog, admits_drawn buf s, [], rfl, hline,
      hwire.trans (List.append_nil _).symm⟩
  · rw [hlog, List.getLast?_append] at hl
    cases hl

/-- Each bus bit clocked joins those already sent. -/
theorem clockBit_keeps_inv {s : State} {buf : List Byte} {o : ChanOutcome} {b : Bool} {left : List Bool}
    (hp : s.phase = .busy buf) (hx : s.xfer = some ⟨o, b :: left⟩) (h : s.Inv) : (clockBit o b left s).Inv := by
  obtain ⟨href, hpast, hlen, before, hbefore, hlog, hadm, sent, hsent, -, hwire⟩ := (inv_iff_of_clocking hp hx).1 h
  refine (inv_iff_of_clocking (s := clockBit o b left s) hp (clockBit_xfer o b left s)).2
    ⟨href, hpast, hlen, before, hbefore, hlog, hadm, sent ++ [b], ?_, (levelAfter_append sent b).symm, ?_⟩
  · rw [hsent, List.append_assoc, List.singleton_append]
  · rw [clockBit_wire, hwire, List.append_assoc, clockBit_past]

/-- The report comes when everything is sent, so the wire carries the reported transfer whole. -/
theorem report_keeps_inv {s : State} {buf : List Byte} {o : ChanOutcome} (hp : s.phase = .busy buf)
    (hx : s.xfer = some ⟨o, []⟩) (h : s.Inv) : (report o s).Inv := by
  obtain ⟨href, hpast, hlen, before, hbefore, hlog, hadm, sent, hsent, -, hwire⟩ := (inv_iff_of_clocking hp hx).1 h
  have hlog' : (report o s).chanLog = before ++ [.start buf, .done o] := by
    rw [report_chanLog, hlog, List.append_assoc, List.singleton_append]
  refine (inv_iff_of_waiting (s := report o s) hp (report_xfer o s)).2
    ⟨href, hpast, hlen, before, hbefore, report_line o s, ?_, .inr ⟨o, hadm, hlog'⟩⟩
  rw [List.append_nil] at hsent
  rw [hlog', wireOf_append_transfer hbefore, hsent, report_wire, hwire, report_past, List.append_assoc]

/-- TRANSMIT's completion: with its `Done` the log is one of reported transfers again. -/
theorem transmitComplete_keeps_inv {s : State} {buf : List Byte} {o : ChanOutcome} (hp : s.phase = .busy buf)
    (hx : s.xfer = none) (hr : chanResult s.chanLog = some o) (h : s.Inv) : (transmitComplete o s).Inv := by
  obtain ⟨href, hpast, hlen, before, hbefore, hline, hwire, hlog | ⟨o', hadm, hlog⟩⟩ := (inv_iff_of_waiting hp hx).1 h
  · have hlast := chanResult_eq_some hr
    rw [hlog, List.getLast?_concat] at hlast
    cases hlast
  · have hwf : logWf s.cfg s.chanLog = true := hlog ▸ logWf_append hlen hadm le_rfl hbefore
    exact (inv_iff_of_idle (transmitComplete_phase o s)).2 ⟨href, hpast, hx, hline, hwf, hwire⟩

theorem BlockMove.keeps_inv {s t : State} (hm : BlockMove s t) (h : s.Inv) : t.Inv := by
  cases hm with
  | held => exact h
  | illegal _ rest hp | mismatch _ rest hp | encode _ rest hp =>
    exact (inv_iff_of_idle hp).2 ((inv_iff_of_idle hp).1 h)
  | issue px rest hp _ hn => exact issue_keeps_inv rest hp hn h
  | takeUp buf hp hx hl => exact takeUp_keeps_inv hp hx hl h
  | clock buf o b left hp hx => exact clockBit_keeps_inv hp hx h
  | report buf o hp hx => exact report_keeps_inv hp hx h
  | complete buf o hp hx hr => exact transmitComplete_keeps_inv hp hx hr h

/-- Settles O39: after reset the logs and the wire are empty. -/
theorem resetMeetsTheInvariant : Obligations.ResetMeetsTheInvariant := fun cfg =>
  (inv_iff_of_idle (resetWith_phase cfg)).2 ⟨rfl, rfl, rfl, rfl, rfl, rfl⟩

theorem resetBlock_inv (s : State) : (resetBlock s).Inv :=
  (inv_iff_of_idle (resetBlock_phase s)).2 ⟨rfl, rfl, rfl, rfl, rfl, rfl⟩

/-- A close moves the log of reported transfers to the past events (log 26). -/
theorem closeChannel_keeps_inv (l : Link) {s : State} (hp : s.phase = .idle) (h : s.Inv) : (closeChannel l s).Inv := by
  obtain ⟨-, hpast, -, -, hlog, hwire⟩ := (inv_iff_of_idle hp).1 h
  refine (inv_iff_of_idle (closeChannel_phase l s)).2 ⟨rfl, logWf_append_logWf hlog le_rfl hpast, rfl, rfl, rfl, ?_⟩
  rw [closeChannel_wire, closeChannel_past, closeChannel_chanLog, wireOf_append _ le_rfl hpast, hwire, wireOf_nil,
    List.append_nil]

/-- Settles O40, by the moves of a step: the Host's own script, its writes, takes and opens are no part of the
invariant. -/
theorem everyStepKeepsTheInvariant : Obligations.EveryStepKeepsTheInvariant := by
  intro s t h hstep
  obtain ⟨-, hmove⟩ := step_next hstep
  cases hmove with
  | block t _ hm => exact hm.keeps_inv h
  | wait t ms _ hm => exact hm.keeps_inv h
  | write w ms | take ms | openChannel hz ms => exact h
  | reset ms => exact resetBlock_inv _
  | shutDown ms _ hp | reconnect ms _ hp => exact closeChannel_keeps_inv _ hp h

end Sys2Proof.Machine

/-! PROOF. The commands' answers (30_encoding.md R72; 41_commands.md R98, R102; 10_state.md section 3), and the channel's
part of a transfer (42_channel_wire.md R110). -/

namespace Sys2Proof.Machine

/-! ### Commands -/

/-- Settles O22, field by field of format `S`. -/
theorem responseHeaderFields : Obligations.ResponseHeaderFields := fun ope st =>
  ⟨respHeader_ope ope st, respHeader_zero ope st, respHeader_status ope st⟩

/-- Settles O27: the blank frame has `N` pixels, and its buffer is the all-zero one. -/
theorem blankAlwaysStartsItsTransfer : Obligations.BlankAlwaysStartsItsTransfer := fun s h =>
  ⟨encodeFn s.cfg (Frame.blank s.cfg.N), exec_transmit_of_length (blank_length s.cfg.N),
    wave_encodeFn_blank h s.cfg.N⟩

/-- The response words and channel events of a command are fixed by the configuration before the state is known. -/
theorem exec_appends (i : Instr) (cfg : Config) :
    ∃ ws es, ∀ s : State, s.cfg = cfg →
      ∃ t, exec i s = .next t ∧ t.respQ = s.respQ ++ ws ∧ t.chanLog = s.chanLog ++ es := by
  by_cases hn : i.frame.length = cfg.N
  · cases i with
    | encode px =>
      refine ⟨respHeader opEncode .ok :: BitVec.ofNat 32 (encodeFn cfg px).length :: dataWords (encodeFn cfg px),
        [], ?_⟩
      rintro s rfl
      refine ⟨_, exec_encode_of_length hn, ?_, (List.append_nil _).symm⟩
      rw [respWrite_respQ, raiseStatus_respQ, List.append_assoc, List.singleton_append]
    | transmit px =>
      refine ⟨[], [.start (encodeFn cfg px)], ?_⟩
      rintro s rfl
      exact ⟨_, exec_transmit_of_length hn, (List.append_nil _).symm, rfl⟩
  · refine ⟨[respHeader (opcode i) .shapeMismatch], [], ?_⟩
    rintro s rfl
    exact ⟨_, exec_of_length_ne i hn, rfl, (List.append_nil _).symm⟩

/-- Settles O28. -/
theorem commandsAreStateless : Obligations.CommandsAreStateless := by
  intro i s₁ s₂ hcfg
  obtain ⟨ws, es, happ⟩ := exec_appends i s₂.cfg
  obtain ⟨t₁, he₁, hw₁, hc₁⟩ := happ s₁ hcfg
  obtain ⟨t₂, he₂, hw₂, hc₂⟩ := happ s₂ rfl
  exact ⟨t₁, t₂, ws, es, he₁, he₂, hw₁, hw₂, hc₁, hc₂⟩

/-- The Host's move `wait` lets the block move (log 3). -/
theorem step_of_wait {s : State} (h : s.Accepted) {ms : List HostMove} (hh : s.host = .wait :: ms) :
    step s = blockStep { s with host := ms } := by
  rw [step_of_hostMove h hh, hostMove]

theorem blockStep_of_command {s : State} {i : Instr} {rest : List Word} (hp : s.phase = .idle)
    (hd : decode s.reqQ = .command i rest) : blockStep s = exec i (consume rest s) := by
  rw [blockStep_of_idle hp, coreStep, hd]

/-- Settles O29: in `Idle` the block's step is the Core's, alone or after a `wait`. -/
theorem stepRunsTheDecodedCommand : Obligations.StepRunsTheDecodedCommand := by
  intro s i rest ha hp hd
  constructor
  · intro hh
    exact step_of_command ⟨ha, hh⟩ hp hd
  · intro ms hh
    rw [step_of_wait ha hh]
    exact blockStep_of_command (s := { s with host := ms }) hp hd

/-! ### The channel -/

/-- Settles O34: the draw is admitted, and the environment's next outcome is drawn as it is when it is admitted. -/
theorem drawnOutcomeIsFree : Obligations.DrawnOutcomeIsFree := by
  intro s buf before hb hp hx hlog
  have hstep : step s = .next (takeUp buf (drawn buf s) (afterDraw s)) := by
    rw [step_of_blockMoves hb, blockStep_of_start hp hx (by rw [hlog, List.getLast?_concat])]
  constructor
  · obtain ⟨chan, draws, hdraw⟩ := afterDraw_eq s
    refine ⟨drawn buf s, chan, draws, admits_drawn buf s, ?_⟩
    rw [hstep, hdraw, takeUp]
  · intro o os ho hchan
    have hdrawn : drawn buf s = o := by simp only [drawn, hchan, within_of_admits ho]
    have hafter : afterDraw s = { s with chan := os } := by simp only [afterDraw, hchan]
    rw [hstep, hdrawn, hafter, takeUp]

theorem step_of_xfer {s : State} {buf : List Byte} {x : Transfer} (hb : s.BlockMoves) (hp : s.phase = .busy buf)
    (hx : s.xfer = some x) : step s = .next (clockOrReport x s) := by
  rw [step_of_blockMoves hb, blockStep_of_xfer hp hx]

/-- Settles O35, by what is left of the transfer. -/
theorem channelClocksBitsThenReports : Obligations.ChannelClocksBitsThenReports := fun _ _ _ hb hp =>
  ⟨fun _ hx => step_of_xfer hb hp hx, fun _ hx => step_of_xfer hb hp hx, fun hx => step_of_xfer hb hp hx⟩

end Sys2Proof.Machine

/-! PROOF. The moves of the Host: what the moves that keep the duties of 41_commands.md R107 do, and that the others are the
only refusals (60_exceptions.md R135; log 4). -/

namespace Sys2Proof.Machine

/-! ### Moves that are made -/

theorem settled_eq_decide (s : State) : settled s = decide (s.phase = .idle ∧ s.reqQ = [] ∧ s.respQ = []) := by
  rw [Bool.eq_iff_iff, settled_iff, decide_eq_true_eq]

/-- What a write does, in the terms of the statements. -/
theorem writeRequest_eq (w : Word) (s : State) :
    writeRequest w s = { s with
      reqQ := s.reqQ ++ [w]
      lastCmd := if owed 0 s.reqQ = 0 then [w] else s.lastCmd ++ [w]
      lastAlone :=
        if owed 0 s.reqQ = 0 then decide (s.phase = .idle ∧ s.reqQ = [] ∧ s.respQ = []) else s.lastAlone } := by
  simp only [writeRequest, atHeader, settled_eq_decide, decide_eq_true_eq]

/-- Settles O31: a write that duty HD3 allows, and a take. -/
theorem hostWritesAndTakesInAnyPhase : Obligations.HostWritesAndTakesInAnyPhase := by
  intro s ms ha
  constructor
  · intro w hh hmay
    have hmay' : mayWrite w { s with host := ms } = true := (mayWrite_iff w { s with host := ms }).2 hmay
    rw [step_of_hostMove ha hh, hostMove, if_pos hmay', writeRequest_eq]
  · intro w ws hh hq
    rw [step_of_hostMove ha hh, hostMove, takeResponse]
    simp only [hq, List.take_succ_cons, List.take_zero, List.drop_succ_cons, List.drop_zero]

/-- Settles O50. -/
theorem hostOpensTheChannelAtBusRate : Obligations.HostOpensTheChannelAtBusRate := by
  intro s ms ha hh hlink
  have hmay : mayOpen s.cfg.fBus.toNat { s with host := ms } = true :=
    (mayOpen_iff _ { s with host := ms }).2 ⟨hlink, rfl⟩
  rw [step_of_hostMove ha hh, hostMove, if_pos hmay, openChannel]

/-- A close with no response left keeps what was observed of the run (log 26). -/
theorem closeChannel_observed (l : Link) {s : State} (hq : s.respQ = []) :
    (closeChannel l s).responses = s.responses ∧ (closeChannel l s).events = s.events := by
  constructor
  · rw [State.responses, State.responses, closeChannel_taken, closeChannel_respQ, hq]
  · rw [State.events, State.events, closeChannel_past, closeChannel_chanLog, List.append_nil]

/-- Settles O51: either close is made by its condition, and both leave what `closeChannel` leaves. -/
theorem closeLeavesOnlyTheConfiguration : Obligations.CloseLeavesOnlyTheConfiguration := by
  intro s ms m l ha hh hlink hp hreq hresp hm
  have hstep : step s = .next (closeChannel l { s with host := ms }) := by
    rw [step_of_hostMove ha hh]
    rcases hm with ⟨rfl, rfl, hcmd, halone⟩ | ⟨rfl, rfl, hfail⟩
    · have hmay : mayShutDown { s with host := ms } = true :=
        (mayShutDown_iff { s with host := ms }).2 ⟨hlink, ⟨hp, hreq, hresp⟩, hcmd, halone⟩
      rw [hostMove, closeMove_of_idle _ _ (by exact hp), if_pos hmay]
    · have hmay : mayReconnect { s with host := ms } = true :=
        (mayReconnect_iff { s with host := ms }).2 ⟨hlink, ⟨hp, hreq, hresp⟩, hfail⟩
      rw [hostMove, closeMove_of_idle _ _ (by exact hp), if_pos hmay]
  obtain ⟨hresponses, hevents⟩ := closeChannel_observed l (s := { s with host := ms }) hresp
  have href : (!s.cfg.wf) = false := by rw [ha.2, Bool.not_true]
  exact ⟨_, hstep, rfl, rfl, rfl, rfl, rfl, rfl, href, rfl, hresponses, hevents, rfl, rfl⟩

/-! ### Moves that are refused -/

/-- A guarded move is refused for its own reason, when its guard fails. -/
theorem guarded_eq_refused {c : Bool} {t : State} {q r : Refusal} :
    (if c then .next t else .refused q : Host.Outcome State Fault Refusal) = .refused r ↔ r = q ∧ c = false := by
  cases c <;> simp [eq_comm]

/-- When a close is refused. -/
theorem closeMove_eq_refused {ok : Bool} {l : Link} {s : State} {r : Refusal} :
    closeMove ok l s = .refused r ↔
      (r = .closeWhileBusy ∧ ∃ buf, s.phase = .busy buf) ∨ (r = .closeOutOfOrder ∧ s.phase = .idle ∧ ok = false) := by
  cases hp : s.phase with
  | idle => rw [closeMove_of_idle ok l hp, guarded_eq_refused]; simp
  | busy buf => rw [closeMove_of_busy ok l hp]; simp [eq_comm]

theorem blockStep_ne_refused (s : State) (r : Refusal) : blockStep s ≠ .refused r := by
  obtain ⟨t, ht, -⟩ := blockStep_move s
  rw [ht]
  nofun

/-- The reasons for which the Host's move `m` is refused in `s`, by the duty it breaks. -/
def Breaks (s : State) (r : Refusal) : HostMove → Prop
  | .write w => r = .transmitOnClosedChannel ∧ mayWrite w s = false
  | .openChannel hz => r = .openOutOfOrder ∧ mayOpen hz s = false
  | .closeChannel =>
    (r = .closeWhileBusy ∧ ∃ buf, s.phase = .busy buf) ∨
      (r = .closeOutOfOrder ∧ s.phase = .idle ∧ mayShutDown s = false)
  | .closeToReconnect =>
    (r = .closeWhileBusy ∧ ∃ buf, s.phase = .busy buf) ∨
      (r = .closeOutOfOrder ∧ s.phase = .idle ∧ mayReconnect s = false)
  | .take | .reset | .wait => False

/-- A move of the Host is refused exactly for the duty it breaks. -/
theorem hostMove_eq_refused (m : HostMove) (s : State) (r : Refusal) : hostMove m s = .refused r ↔ Breaks s r m := by
  cases m with
  | write w => exact guarded_eq_refused
  | openChannel hz => exact guarded_eq_refused
  | closeChannel => exact closeMove_eq_refused
  | closeToReconnect => exact closeMove_eq_refused
  | take | reset => exact iff_of_false nofun id
  | wait => exact iff_of_false (blockStep_ne_refused s r) id

/-- An accepted state stops exactly on a next Host move that breaks a duty. -/
theorem step_eq_refused {s : State} (h : s.Accepted) (r : Refusal) :
    step s = .refused r ↔ ∃ m, s.host.head? = some m ∧ Breaks s r m := by
  cases hh : s.host with
  | nil =>
    rw [step_of_blockMoves ⟨h, hh⟩]
    exact iff_of_false (blockStep_ne_refused s r) (by simp)
  | cons m ms =>
    rw [step_of_hostMove h hh, hostMove_eq_refused]
    simp only [List.head?_cons, Option.some.injEq, exists_eq_left']
    cases m <;> rfl

theorem mayWrite_eq_false (w : Word) (s : State) :
    mayWrite w s = false ↔
      s.link ≠ .opened s.cfg.fBus.toNat ∧ owed 0 s.reqQ = 0 ∧ w &&& 0xFFFF0000#32 = 0x02000000#32 := by
  rw [← Bool.not_eq_true, mayWrite_iff, not_or, not_or, not_not, not_not]

theorem mayOpen_eq_false (hz : Nat) (s : State) :
    mayOpen hz s = false ↔ ¬(s.link = .closed ∧ hz = s.cfg.fBus.toNat) := by
  rw [← Bool.not_eq_true, mayOpen_iff]

theorem mayShutDown_eq_false {s : State} (hp : s.phase = .idle) :
    mayShutDown s = false ↔
      ¬(s.link = .opened s.cfg.fBus.toNat ∧ s.reqQ = [] ∧ s.respQ = [] ∧
        s.lastCmd = encode (Instr.blank s.cfg) ∧ s.lastAlone = true) := by
  rw [← Bool.not_eq_true, mayShutDown_iff]
  simp only [hp, true_and, and_assoc]

theorem mayReconnect_eq_false {s : State} (hp : s.phase = .idle) :
    mayReconnect s = false ↔
      ¬(s.link = .opened s.cfg.fBus.toNat ∧ s.reqQ = [] ∧ s.respQ = [] ∧
        (s.hadFailure = true ∨ ∃ k, .done (.fail k) ∈ s.chanLog)) := by
  rw [← Bool.not_eq_true, mayReconnect_iff]
  simp only [hp, true_and, and_assoc]

theorem step_ne_fault (s : State) (f : Fault) : step s ≠ .fault f := nomatch f

theorem not_accepted_iff (s : State) : ¬ s.Accepted ↔ s.refused = true ∨ s.cfg.wf = false := by
  rw [State.Accepted, not_and_or, Bool.not_eq_false, Bool.not_eq_true]

/-- A configuration that is not accepted gives no step to any agent (00_scope.md R9). -/
theorem step_of_not_accepted {s : State} (h : ¬ s.Accepted) : step s = .refused .illFormedConfig := by
  have hguard : (s.refused || !s.cfg.wf) = true := by
    rwa [Bool.or_eq_true, Bool.not_eq_true', ← not_accepted_iff]
  rw [step, guardedStep, if_pos hguard]

/-- No duty of the Host is about the configuration. -/
theorem not_breaks_illFormed (s : State) (m : HostMove) : ¬ Breaks s .illFormedConfig m := by
  cases m <;> simp [Breaks]

theorem step_eq_illFormed (s : State) :
    step s = .refused .illFormedConfig ↔ s.refused = true ∨ s.cfg.wf = false := by
  rw [← not_accepted_iff]
  refine ⟨fun h ha => ?_, step_of_not_accepted⟩
  obtain ⟨m, -, hbreak⟩ := (step_eq_refused ha _).1 h
  exact not_breaks_illFormed s m hbreak

/-- Settles O30: the next Host move is the only source of a refusal, and each move breaks its own duties. -/
theorem stepStopsOnlyOnRefusals : Obligations.StepStopsOnlyOnRefusals := by
  intro s
  refine ⟨step_ne_fault s, step_eq_illFormed s, fun r ha => ?_⟩
  rw [step_eq_refused ha]
  cases hm : s.host.head? with
  | none => simp
  | some m =>
    simp only [Option.some.injEq, exists_eq_left']
    cases m with
    | write w => simp [Breaks, mayWrite_eq_false]
    | openChannel hz => simp [Breaks, mayOpen_eq_false]
    | closeChannel =>
      rw [Breaks, and_congr_right mayShutDown_eq_false]
      simp
    | closeToReconnect =>
      rw [Breaks, and_congr_right mayReconnect_eq_false]
      simp
    | take | reset | wait => simp [Breaks]

end Sys2Proof.Machine

/-! PROOF. What no step takes back: the configuration (10_state.md section 2), the history of responses and channel events
(20_memory.md R58; 30_encoding.md R75), the framing of the request stream (41_commands.md R107, HD1) and the end of a run
(70_reset_and_hazards.md R150). -/

namespace Sys2Proof.Machine

/-! ### The configuration -/

theorem StepMove.keeps_cfg {s t : State} (hm : StepMove s t) : t.cfg = s.cfg := by
  cases hm with
  | block t _ hm => exact hm.keeps_link_cfg.2
  | wait t ms _ hm => exact hm.keeps_link_cfg.2
  | write | take | reset | openChannel | shutDown | reconnect => rfl

theorem step_keeps_cfg {s t : State} (h : step s = .next t) : t.cfg = s.cfg := (step_next h).2.keeps_cfg

/-- Settles O41: what every step keeps, every run keeps. -/
theorem configurationNeverChanges : Obligations.ConfigurationNeverChanges :=
  ⟨fun _ _ => step_keeps_cfg, fun n s _ => run_keeps (P := fun u => u.cfg = s.cfg)
    (fun _ _ hu hstep => (step_keeps_cfg hstep).trans hu) n rfl⟩

/-! ### The history -/

/-- The whole responses (30_encoding.md R75): one header with a status its command can have, or an OK of ENCODE with `LB`
and its data words. -/
def WholeResponse (cfg : Config) (ws : List Word) : Prop :=
  (∃ ope st, ws = [respHeader ope st] ∧ (st = .ok ∨ st = .channelWriteFailure → ope = 0x02#8) ∧
      (st = .shapeMismatch → ope = 0x01#8 ∨ ope = 0x02#8)) ∨
    ∃ data, ws = 0x01000000#32 :: BitVec.ofNat 32 cfg.LB :: data ∧ data.length = (cfg.LB + 3) / 4

theorem wholeResponse_illegal (cfg : Config) (ope : Byte) : WholeResponse cfg [respHeader ope .illegalCommand] :=
  .inl ⟨ope, _, rfl, by simp, nofun⟩

theorem wholeResponse_mismatch (cfg : Config) (i : Instr) :
    WholeResponse cfg [respHeader (opcode i) .shapeMismatch] := by
  refine .inl ⟨opcode i, _, rfl, by simp, fun _ => ?_⟩
  cases i with
  | encode => exact .inl rfl
  | transmit => exact .inr rfl

theorem wholeResponse_encode {cfg : Config} {px : Frame} (hn : px.length = cfg.N) :
    WholeResponse cfg
      (respHeader opEncode .ok :: BitVec.ofNat 32 (encodeFn cfg px).length :: dataWords (encodeFn cfg px)) := by
  refine .inr ⟨dataWords (encodeFn cfg px), ?_, ?_⟩
  · rw [respHeader_encode_ok, encodeFn_length_eq_LB hn]
  · rw [dataWords_length, encodeFn_length_eq_LB hn]

theorem wholeResponse_transmit (cfg : Config) (o : ChanOutcome) :
    WholeResponse cfg [respHeader opTransmit (outcomeStatus o)] :=
  .inl ⟨opTransmit, _, rfl, fun _ => rfl, fun _ => .inr rfl⟩

/-- From `s` to `t` the block appends the response words `ws` and the channel events `es`: at most one event, and either
no word or one whole response, with which it is `Idle`. -/
structure Appends (s t : State) (ws : List Word) (es : List ChanEvent) : Prop where
  taken : t.taken = s.taken
  respQ : t.respQ = s.respQ ++ ws
  past : t.past = s.past
  chanLog : t.chanLog = s.chanLog ++ es
  oneEvent : es.length ≤ 1
  oneResponse : ws = [] ∨ t.phase = .idle ∧ WholeResponse s.cfg ws

theorem Appends.nothing {s t : State} (htaken : t.taken = s.taken) (hresp : t.respQ = s.respQ) (hpast : t.past = s.past)
    (hlog : t.chanLog = s.chanLog) : Appends s t [] [] :=
  ⟨htaken, by rw [hresp, List.append_nil], hpast, by rw [hlog, List.append_nil], Nat.zero_le 1, .inl rfl⟩

/-- What a move of the Core or the Channel appends. -/
theorem BlockMove.appends {s t : State} (hm : BlockMove s t) : ∃ ws es, Appends s t ws es := by
  cases hm with
  | held => exact ⟨[], [], .nothing rfl rfl rfl rfl⟩
  | illegal h rest hp =>
    exact ⟨_, [], rfl, rfl, rfl, (List.append_nil _).symm, Nat.zero_le 1, .inr ⟨hp, wholeResponse_illegal _ _⟩⟩
  | mismatch i rest hp =>
    exact ⟨_, [], rfl, rfl, rfl, (List.append_nil _).symm, Nat.zero_le 1, .inr ⟨hp, wholeResponse_mismatch _ i⟩⟩
  | encode px rest hp _ hn =>
    refine ⟨_, [], rfl, ?_, rfl, (List.append_nil _).symm, Nat.zero_le 1, .inr ⟨hp, wholeResponse_encode hn⟩⟩
    rw [respWrite_respQ, raiseStatus_respQ, consume_respQ, List.append_assoc, List.singleton_append]
  | issue => exact ⟨[], _, rfl, (List.append_nil _).symm, rfl, rfl, le_rfl, .inl rfl⟩
  | takeUp =>
    refine ⟨[], [], .nothing ?_ ?_ ?_ ?_⟩
    · rw [takeUp_taken, afterDraw_taken]
    · rw [takeUp_respQ, afterDraw_respQ]
    · rw [takeUp_past, afterDraw_past]
    · rw [takeUp_chanLog, afterDraw_chanLog]
  | clock => exact ⟨[], [], .nothing rfl rfl rfl rfl⟩
  | report => exact ⟨[], _, rfl, (List.append_nil _).symm, rfl, rfl, le_rfl, .inl rfl⟩
  | complete buf o =>
    exact ⟨_, [], rfl, rfl, rfl, (List.append_nil _).symm, Nat.zero_le 1, .inr ⟨rfl, wholeResponse_transmit _ o⟩⟩

theorem Appends.responses {s t : State} {ws : List Word} {es : List ChanEvent} (h : Appends s t ws es) :
    t.responses = s.responses ++ ws := by
  rw [State.responses, State.responses, h.taken, h.respQ, List.append_assoc]

theorem Appends.events {s t : State} {ws : List Word} {es : List ChanEvent} (h : Appends s t ws es) :
    t.events = s.events ++ es := by
  rw [State.events, State.events, h.past, h.chanLog, List.append_assoc]

/-- Taking a response moves a word within the observed responses. -/
theorem takeResponse_responses (s : State) : (takeResponse s).responses = s.responses := by
  rw [State.responses, State.responses, takeResponse_taken, takeResponse_respQ, List.append_assoc,
    List.take_append_drop]

/-- The history of `t` extends the one of `s` as `Appends` says, over any move of the Host but a reset: a close empties
the block's log, whose events stay observed (log 26). -/
def Grows (s t : State) : Prop :=
  ∃ ws es, t.responses = s.responses ++ ws ∧ t.events = s.events ++ es ∧ es.length ≤ 1 ∧
    (s.host.head? ≠ some .closeChannel → s.host.head? ≠ some .closeToReconnect → t.chanLog = s.chanLog ++ es) ∧
    (ws ≠ [] → t.phase = .idle ∧ WholeResponse s.cfg ws)

theorem Appends.grows {s t : State} {ws : List Word} {es : List ChanEvent} (h : Appends s t ws es) : Grows s t :=
  ⟨ws, es, h.responses, h.events, h.oneEvent, fun _ _ => h.chanLog, h.oneResponse.resolve_left⟩

/-- A move of the Host that leaves the observed history as it is. -/
theorem Grows.of_same {s t : State} (hresp : t.responses = s.responses) (hev : t.events = s.events)
    (hlog : s.host.head? ≠ some .closeChannel → s.host.head? ≠ some .closeToReconnect → t.chanLog = s.chanLog) :
    Grows s t := by
  refine ⟨[], [], ?_, ?_, Nat.zero_le 1, ?_, fun h => absurd rfl h⟩
  · rw [hresp, List.append_nil]
  · rw [hev, List.append_nil]
  · rwa [List.append_nil]

theorem StepMove.grows {s t : State} (hm : StepMove s t) (hreset : s.host.head? ≠ some .reset) : Grows s t := by
  cases hm with
  | block t _ hm =>
    obtain ⟨_, _, h⟩ := hm.appends
    exact h.grows
  | wait t ms _ hm =>
    obtain ⟨_, _, h⟩ := hm.appends
    exact Appends.grows ⟨h.taken, h.respQ, h.past, h.chanLog, h.oneEvent, h.oneResponse⟩
  | write w ms | openChannel hz ms => exact .of_same rfl rfl fun _ _ => rfl
  | take ms => exact .of_same (takeResponse_responses _) rfl fun _ _ => rfl
  | reset ms hh => exact absurd (by rw [hh, List.head?_cons]) hreset
  | shutDown ms hh _ hmay =>
    obtain ⟨-, ⟨-, -, hq⟩, -⟩ := (mayShutDown_iff s).1 hmay
    obtain ⟨hresp, hev⟩ := closeChannel_observed .shutDown (s := { s with host := ms }) hq
    exact .of_same hresp hev fun hne _ => absurd (by rw [hh, List.head?_cons]) hne
  | reconnect ms hh _ hmay =>
    obtain ⟨-, ⟨-, -, hq⟩, -⟩ := (mayReconnect_iff s).1 hmay
    obtain ⟨hresp, hev⟩ := closeChannel_observed .closed (s := { s with host := ms }) hq
    exact .of_same hresp hev fun _ hne => absurd (by rw [hh, List.head?_cons]) hne

/-- Settles O42: the block appends at most one event and one whole response, and the Host's other moves leave what is
observed. -/
theorem historyOnlyGrows : Obligations.HistoryOnlyGrows := fun _ _ hstep hreset => (step_next hstep).2.grows hreset

/-! ### Framed streams -/

theorem statusCode_ne_illegal {st : Status} (h : st ≠ .illegalCommand) :
    statusCode st ≠ statusCode .illegalCommand := by
  cases st with
  | illegalCommand => exact absurd rfl h
  | ok | shapeMismatch | channelWriteFailure => decide

/-- The words do not begin with a header of status ILLEGAL_COMMAND. -/
def NotIllegal (ws : List Word) : Prop :=
  ∀ w, ws.head? = some w → w.extractLsb' 0 8 ≠ statusCode .illegalCommand

theorem notIllegal_nil : NotIllegal [] := nofun

theorem notIllegal_respHeader {ope : Byte} {st : Status} (h : st ≠ .illegalCommand) (ws : List Word) :
    NotIllegal (respHeader ope st :: ws) := by
  intro w hw
  rw [List.head?_cons, Option.some.injEq] at hw
  rw [← hw, respHeader_status]
  exact statusCode_ne_illegal h

theorem outcomeStatus_ne_illegal (o : ChanOutcome) : outcomeStatus o ≠ .illegalCommand := by
  cases o <;> nofun

/-- The words after a command of a framed stream are framed. -/
theorem framed_rest {ws rest : List Word} {i : Instr} (hf : (framed ws).isSome = true)
    (hd : decode ws = .command i rest) : (framed rest).isSome = true := by
  rcases framed_cases hf with rfl | ⟨i', rest', hd', hf'⟩
  · cases hd
  · rw [hd, Decoded.command.injEq] at hd'
    exact hd'.2 ▸ hf'

theorem decode_ne_illegal_of_framed {ws : List Word} (hf : (framed ws).isSome = true) (h : Word) (rest : List Word) :
    decode ws ≠ .illegal h rest := by
  rcases framed_cases hf with rfl | ⟨i, rest', hd, -⟩
  · nofun
  · rw [hd]
    nofun

/-- A move of the block takes whole commands off a framed queue, and answers no illegal header. -/
theorem BlockMove.keeps_framed {s t : State} (hm : BlockMove s t) (hf : (framed s.reqQ).isSome = true) :
    (framed t.reqQ).isSome = true ∧ ∃ ws, t.respQ = s.respQ ++ ws ∧ NotIllegal ws := by
  cases hm with
  | held => exact ⟨hf, [], (List.append_nil _).symm, notIllegal_nil⟩
  | illegal h rest hp hd => exact absurd hd (decode_ne_illegal_of_framed hf h rest)
  | mismatch i rest hp hd => exact ⟨framed_rest hf hd, _, rfl, notIllegal_respHeader (st := .shapeMismatch) nofun []⟩
  | encode px rest hp hd =>
    exact ⟨framed_rest hf hd, _, List.append_assoc _ _ _, notIllegal_respHeader (st := .ok) nofun _⟩
  | issue px rest hp hd => exact ⟨framed_rest hf hd, [], (List.append_nil _).symm, notIllegal_nil⟩
  | takeUp =>
    rw [takeUp_reqQ, afterDraw_reqQ, takeUp_respQ, afterDraw_respQ]
    exact ⟨hf, [], (List.append_nil _).symm, notIllegal_nil⟩
  | clock | report => exact ⟨hf, [], (List.append_nil _).symm, notIllegal_nil⟩
  | complete buf o => exact ⟨hf, _, rfl, notIllegal_respHeader (outcomeStatus_ne_illegal o) []⟩

/-- Settles O37. -/
theorem framedStreamNeverMeetsIllegal : Obligations.FramedStreamNeverMeetsIllegal := by
  intro s hb hf
  obtain ⟨t, ht, hm⟩ := blockStep_move s
  obtain ⟨hf', ws, hresp, hws⟩ := hm.keeps_framed hf
  exact ⟨t, ws, (step_of_blockMoves hb).trans ht, hf', hresp, hws⟩

/-! ### The end of a run -/

theorem ended_iff (s : State) :
    s.ended = true ↔
      writtenWords s.host = [] ∧ s.reqQ = [] ∧ s.phase = .idle ∧ logComplete s.chanLog = true ∧ s.refused = false := by
  simp only [State.ended, Bool.and_eq_true, decide_eq_true_eq, Bool.not_eq_true', and_assoc]

/-- The block leaves `Idle` with nothing queued as it is. -/
theorem BlockMove.eq_of_idle_empty {s t : State} (hm : BlockMove s t) (hp : s.phase = .idle) (hq : s.reqQ = []) :
    t = s := by
  have hheld : decode s.reqQ = .held := by rw [hq, decode_nil]
  cases hm with
  | held => rfl
  | illegal _ _ _ hd | mismatch _ _ _ hd | encode _ _ _ hd | issue _ _ _ hd => cases hheld.symm.trans hd
  | takeUp _ hb | clock _ _ _ _ hb | report _ _ hb | complete _ _ hb => cases hp.symm.trans hb

/-- A script that writes no word writes none after its first move, which is no write. -/
theorem writtenWords_tail {m : HostMove} {ms : List HostMove} (h : writtenWords (m :: ms) = []) :
    writtenWords ms = [] ∧ ∀ w, m ≠ .write w := by
  cases m with
  | write w => cases h
  | take | reset | openChannel | closeChannel | closeToReconnect | wait => exact ⟨h, nofun⟩

/-- Settles O36: with nothing queued the block holds; the Host's script has no write to come, and its other moves leave
the queue empty, the Core `Idle` and the log complete. -/
theorem endedRunHolds : Obligations.EndedRunHolds := by
  intro s hend hwf
  obtain ⟨hwords, hq, hp, hlog, href⟩ := (ended_iff s).1 hend
  constructor
  · intro hh
    exact step_of_held ⟨⟨href, hwf⟩, hh⟩ hp (by rw [hq, decode_nil])
  · intro t hstep
    have hwf' : (!s.cfg.wf) = false := by rw [hwf, Bool.not_true]
    cases (step_next hstep).2 with
    | block t _ hm => rwa [hm.eq_of_idle_empty hp hq]
    | wait t ms hh hm =>
      obtain ⟨hms, -⟩ := writtenWords_tail (hh ▸ hwords)
      rw [hm.eq_of_idle_empty hp hq]
      exact (ended_iff _).2 ⟨hms, hq, hp, hlog, href⟩
    | write w ms hh => exact absurd rfl ((writtenWords_tail (hh ▸ hwords)).2 w)
    | take ms hh | openChannel hz ms hh =>
      obtain ⟨hms, -⟩ := writtenWords_tail (hh ▸ hwords)
      exact (ended_iff _).2 ⟨hms, hq, hp, hlog, href⟩
    | reset ms hh | shutDown ms hh | reconnect ms hh =>
      obtain ⟨hms, -⟩ := writtenWords_tail (hh ▸ hwords)
      exact (ended_iff _).2 ⟨hms, rfl, rfl, rfl, hwf'⟩

end Sys2Proof.Machine

/-! PROOF. Runs of the block with no Host move to come: one transfer to its response (42_channel_wire.md R110, R112), and a
queue of commands to the end of the run (20_memory.md R58; 70_reset_and_hazards.md R150). -/

namespace Sys2Proof.Machine

/-! ### One transfer -/

/-- A run goes on from its first step. -/
theorem run_of_step {s t : State} (h : step s = .next t) (n : Nat) : core.run (1 + n) s = core.run n t :=
  run_add 1 n s (run_one h)

/-- The transfer's bus bits go out in order, one a step (log 6). -/
theorem run_clock {s : State} {buf : List Byte} {o : ChanOutcome} {left : List Bool} (hb : s.BlockMoves)
    (hp : s.phase = .busy buf) (hx : s.xfer = some ⟨o, left⟩) :
    ∃ line, core.run left.length s =
      .next { s with line := line, wire := s.wire ++ left, xfer := some ⟨o, []⟩ } := by
  induction left generalizing s with
  | nil =>
    refine ⟨s.line, ?_⟩
    rw [List.append_nil, ← hx]
    rfl
  | cons b left ih =>
    obtain ⟨line, hrun⟩ := ih (s := clockBit o b left s) hb hp rfl
    refine ⟨line, ?_⟩
    rw [List.length_cons, Nat.add_comm, run_of_step (step_of_xfer hb hp hx)]
    rw [clockBit_wire, List.append_assoc, List.singleton_append] at hrun
    exact hrun

/-- With every bus bit clocked the transfer is reported and answered. -/
theorem run_report {s : State} {buf : List Byte} {o : ChanOutcome} (hb : s.BlockMoves) (hp : s.phase = .busy buf)
    (hx : s.xfer = some ⟨o, []⟩) :
    core.run (1 + 1) s =
      .next { s with
        phase := .idle, chanLog := s.chanLog ++ [.done o], line := .low, xfer := none
        respQ := s.respQ ++ [respHeader opTransmit (outcomeStatus o)] } := by
  have hreport : step s = .next (report o s) := step_of_xfer hb hp hx
  have hlast : (report o s).chanLog.getLast? = some (.done o) := by rw [report_chanLog, List.getLast?_concat]
  rw [run_of_step hreport, run_one (step_of_done (s := report o s) hb hp rfl hlast)]
  rfl

/-- A transfer taken up is clocked, reported and answered. -/
theorem run_xfer {s : State} {buf : List Byte} {o : ChanOutcome} {left : List Bool} (hb : s.BlockMoves)
    (hp : s.phase = .busy buf) (hx : s.xfer = some ⟨o, left⟩) :
    core.run (left.length + (1 + 1)) s =
      .next { s with
        phase := .idle, chanLog := s.chanLog ++ [.done o], line := .low, wire := s.wire ++ left, xfer := none
        respQ := s.respQ ++ [respHeader opTransmit (outcomeStatus o)] } := by
  obtain ⟨line, hclock⟩ := run_clock hb hp hx
  exact (run_add _ _ _ hclock).trans (run_report hb hp rfl)

theorem respHeader_outcome (o : ChanOutcome) :
    respHeader opTransmit (outcomeStatus o) = if o = .ok then 0x02000000#32 else 0x02000002#32 := by
  cases o with
  | ok => exact respHeader_transmit_ok
  | fail k => exact respHeader_transmit_channelWriteFailure

/-- Settles O43: the transfer is taken up, its bus bits are clocked, and it is reported and answered. -/
theorem transferRunsToItsResponse : Obligations.TransferRunsToItsResponse := by
  intro s buf before hb hp hx hlog
  obtain ⟨⟨o, chan, draws, ho, htake⟩, -⟩ := drawnOutcomeIsFree s buf before hb hp hx hlog
  refine ⟨o, chan, draws, ho, ?_⟩
  have hrun := run_xfer
    (s := { s with chan := chan, draws := draws, xfer := some ⟨o, wave (clocked o buf)⟩ }) hb hp rfl
  rw [← respHeader_outcome, show 8 * (clocked o buf).length + 3 = 1 + ((wave (clocked o buf)).length + (1 + 1)) by
    rw [wave_length]; omega, run_of_step htake, hrun, ← hx]

/-! ### A queue of commands -/

/-- Some run from `s` to `t` answers the commands `is` in order and comes to `Idle` with `rest` queued: one response each,
and the transfers of the TRANSMITs of the right length. -/
structure RunsThrough (s : State) (is : List Instr) (rest : List Word) (t : State) : Prop where
  run : ∃ n, core.run n s = .next t
  phase : t.phase = .idle
  reqQ : t.reqQ = rest
  host : t.host = s.host
  responses : ∃ rs, t.responses = s.responses ++ rs.flatten ∧ List.Forall₂ (answers s.cfg) is rs
  chanLog : ∃ es, t.chanLog = s.chanLog ++ es ∧ startsOf es = transfersOf s.cfg is

theorem RunsThrough.cfg {s t : State} {is : List Instr} {rest : List Word} (h : RunsThrough s is rest t) :
    t.cfg = s.cfg := by
  obtain ⟨n, hrun⟩ := h.run
  exact configurationNeverChanges.2 n s t hrun

theorem RunsThrough.keeps_inv {s t : State} {is : List Instr} {rest : List Word} (h : RunsThrough s is rest t)
    (hi : s.Inv) : t.Inv := by
  obtain ⟨n, hrun⟩ := h.run
  exact run_keeps everyStepKeepsTheInvariant n hi hrun

theorem RunsThrough.keeps_blockMoves {s t : State} {is : List Instr} {rest : List Word} (h : RunsThrough s is rest t)
    (hb : s.BlockMoves) (hi : s.Inv) : t.BlockMoves := by
  obtain ⟨⟨-, hwf⟩, hhost⟩ := hb
  obtain ⟨href, -⟩ := h.keeps_inv hi
  refine ⟨⟨?_, ?_⟩, ?_⟩
  · rw [href, h.cfg, hwf, Bool.not_true]
  · rw [h.cfg, hwf]
  · rw [h.host, hhost]

theorem RunsThrough.nil {s : State} (hp : s.phase = .idle) : RunsThrough s [] s.reqQ s where
  run := ⟨0, rfl⟩
  phase := hp
  reqQ := rfl
  host := rfl
  responses := ⟨[], (List.append_nil _).symm, .nil⟩
  chanLog := ⟨[], (List.append_nil _).symm, rfl⟩

/-- The first command's run and then the others'. -/
theorem RunsThrough.cons {s t u : State} {i : Instr} {is : List Instr} {mid rest : List Word}
    (h₁ : RunsThrough s [i] mid t) (h₂ : RunsThrough t is rest u) : RunsThrough s (i :: is) rest u := by
  obtain ⟨n, hrun₁⟩ := h₁.run
  obtain ⟨m, hrun₂⟩ := h₂.run
  obtain ⟨rs₁, hresp₁, hans₁⟩ := h₁.responses
  obtain ⟨rs₂, hresp₂, hans₂⟩ := h₂.responses
  obtain ⟨es₁, hlog₁, hstarts₁⟩ := h₁.chanLog
  obtain ⟨es₂, hlog₂, hstarts₂⟩ := h₂.chanLog
  rw [h₁.cfg] at hans₂ hstarts₂
  refine ⟨⟨n + m, (run_add n m s hrun₁).trans hrun₂⟩, h₂.phase, h₂.reqQ, h₂.host.trans h₁.host,
    ⟨rs₁ ++ rs₂, ?_, List.rel_append hans₁ hans₂⟩, ⟨es₁ ++ es₂, ?_, ?_⟩⟩
  · rw [hresp₂, hresp₁, List.flatten_append, List.append_assoc]
  · rw [hlog₂, hlog₁, List.append_assoc]
  · rw [startsOf_append, hstarts₁, hstarts₂, ← transfersOf_cons]

/-- One response for one command. -/
theorem responses_singleton {s t : State} {i : Instr} {ws : List Word} (htaken : t.taken = s.taken)
    (hresp : t.respQ = s.respQ ++ ws) (hans : answers s.cfg i ws) :
    ∃ rs, t.responses = s.responses ++ rs.flatten ∧ List.Forall₂ (answers s.cfg) [i] rs := by
  refine ⟨[ws], ?_, .cons hans .nil⟩
  rw [State.responses, State.responses, htaken, hresp, List.flatten_singleton, List.append_assoc]

/-- A command answered in one step hands the channel nothing. -/
theorem runsThrough_of_step {s t : State} {i : Instr} {ws : List Word} (hstep : step s = .next t)
    (hp : t.phase = .idle) (hhost : t.host = s.host) (htaken : t.taken = s.taken) (hresp : t.respQ = s.respQ ++ ws)
    (hans : answers s.cfg i ws) (hlog : t.chanLog = s.chanLog) (hnone : transfersOf s.cfg [i] = []) :
    RunsThrough s [i] t.reqQ t where
  run := ⟨1, run_one hstep⟩
  phase := hp
  reqQ := rfl
  host := hhost
  responses := responses_singleton htaken hresp hans
  chanLog := ⟨[], by rw [hlog, List.append_nil], hnone.symm⟩

theorem answers_of_length_ne {cfg : Config} {i : Instr} (hn : i.frame.length ≠ cfg.N) :
    answers cfg i [respHeader (opcode i) .shapeMismatch] := by
  unfold answers
  rw [if_pos hn]

theorem transfersOf_of_length_ne {cfg : Config} {i : Instr} (hn : i.frame.length ≠ cfg.N) :
    transfersOf cfg [i] = [] := by
  cases i with
  | encode px => rfl
  | transmit px => exact if_neg hn

theorem answers_encode {cfg : Config} {px : Frame} (hn : px.length = cfg.N) :
    answers cfg (.encode px)
      (respHeader opEncode .ok :: BitVec.ofNat 32 (encodeFn cfg px).length :: dataWords (encodeFn cfg px)) := by
  simp only [answers, Instr.frame, hn, ne_eq, not_true_eq_false, if_false, encodeFn_length_eq_LB hn]

theorem answers_transmit {cfg : Config} {px : Frame} (hn : px.length = cfg.N) (o : ChanOutcome) :
    answers cfg (.transmit px) [respHeader opTransmit (outcomeStatus o)] := by
  simp only [answers, Instr.frame, hn, ne_eq, not_true_eq_false, if_false]
  cases o with
  | ok => exact .inl rfl
  | fail k => exact .inr rfl

theorem transfersOf_transmit {cfg : Config} {px : Frame} (hn : px.length = cfg.N) :
    transfersOf cfg [.transmit px] = [encodeFn cfg px] := if_pos hn

/-- A TRANSMIT of the right length is issued, and its transfer runs to its response. -/
theorem runsThrough_transmit {s : State} {px : Frame} {rest : List Word} (hb : s.BlockMoves) (hx : s.xfer = none)
    (hp : s.phase = .idle) (hd : decode s.reqQ = .command (.transmit px) rest) (hn : px.length = s.cfg.N) :
    ∃ t, RunsThrough s [.transmit px] rest t := by
  have hissue := (step_of_command hb hp hd).trans (exec_transmit_of_length hn)
  obtain ⟨o, chan, draws, -, hrun⟩ := transferRunsToItsResponse _ (encodeFn s.cfg px) s.chanLog
    (show State.BlockMoves (setPhase _ (chanWrite _ (consume rest s))) from hb) rfl hx rfl
  rw [← respHeader_outcome] at hrun
  exact ⟨_, ⟨_, (run_of_step hissue _).trans hrun⟩, rfl, rfl, rfl, responses_singleton rfl rfl (answers_transmit hn o),
    _, List.append_assoc _ _ _, (transfersOf_transmit hn).symm⟩

/-- One command at the head of the queue is answered. -/
theorem runsThrough_command {s : State} {i : Instr} {rest : List Word} (hb : s.BlockMoves) (hx : s.xfer = none)
    (hp : s.phase = .idle) (hd : decode s.reqQ = .command i rest) : ∃ t, RunsThrough s [i] rest t := by
  have hstep := step_of_command hb hp hd
  by_cases hn : i.frame.length = s.cfg.N
  · cases i with
    | encode px =>
      refine ⟨_, runsThrough_of_step (hstep.trans (exec_encode_of_length hn)) hp rfl rfl ?_ (answers_encode hn) rfl rfl⟩
      rw [respWrite_respQ, raiseStatus_respQ, consume_respQ, List.append_assoc, List.singleton_append, consume_cfg]
    | transmit px => exact runsThrough_transmit hb hx hp hd hn
  · exact ⟨_, runsThrough_of_step (hstep.trans (exec_of_length_ne i hn)) hp rfl rfl rfl (answers_of_length_ne hn) rfl
      (transfersOf_of_length_ne hn)⟩

/-- A queue of well-formed commands is answered to its end. -/
theorem runsThrough_queue {s : State} {is : List Instr} (hb : s.BlockMoves) (hi : s.Inv) (hp : s.phase = .idle)
    (hwf : ∀ i ∈ is, i.wf = true) (hq : s.reqQ = is.flatMap encode) : ∃ t, RunsThrough s is [] t := by
  induction is generalizing s with
  | nil =>
    rw [List.flatMap_nil] at hq
    exact ⟨s, hq ▸ RunsThrough.nil hp⟩
  | cons i is ih =>
    obtain ⟨-, -, hx, -⟩ := (inv_iff_of_idle hp).1 hi
    have hd : decode s.reqQ = .command i (is.flatMap encode) := by
      rw [hq, List.flatMap_cons, decode_encode (hwf i List.mem_cons_self)]
    obtain ⟨t, ht⟩ := runsThrough_command hb hx hp hd
    obtain ⟨u, hu⟩ := ih (ht.keeps_blockMoves hb hi) (ht.keeps_inv hi) ht.phase
      (fun j hj => hwf j (List.mem_cons_of_mem i hj)) ht.reqQ
    exact ⟨u, ht.cons hu⟩

/-- Settles O44: after the last command the queue is empty, and the invariant gives a complete log. -/
theorem everyQueuedCommandIsAnsweredInOrder : Obligations.EveryQueuedCommandIsAnsweredInOrder := by
  intro s is hb hi hp hwf hq
  obtain ⟨t, ht⟩ := runsThrough_queue hb hi hp hwf hq
  obtain ⟨n, hrun⟩ := ht.run
  obtain ⟨rs, hresp, hans⟩ := ht.responses
  obtain ⟨es, hlog, hstarts⟩ := ht.chanLog
  obtain ⟨⟨href, -⟩, hhost⟩ := ht.keeps_blockMoves hb hi
  obtain ⟨-, -, -, -, hwflog, -⟩ := (inv_iff_of_idle ht.phase).1 (ht.keeps_inv hi)
  have hend : t.ended = true :=
    (ended_iff t).2 ⟨by rw [hhost, writtenWords], ht.reqQ, ht.phase, logComplete_of_logWf le_rfl hwflog, href⟩
  exact ⟨n, t, rs, es, hrun, hend, hresp, hans, hlog, hstarts⟩

end Sys2Proof.Machine

/-! PROOF. The waveform of a transfer: the protocol bits read back from it, the pulse widths and the latch time, and the
transfer's duration (42_channel_wire.md section 2; 70_reset_and_hazards.md section 4). -/

namespace Sys2Proof.Machine

/-! ### Reading the groups back -/

theorem highRun_pulse (n m : Nat) : highRun (List.replicate n true ++ List.replicate m false) = n := by
  induction n with
  | zero => cases m <;> rfl
  | succ n ih => rw [List.replicate_succ, List.cons_append, highRun, ih]

theorem highRun_group {cfg : Config} (h : cfg.wf = true) (t : Bool) : highRun (group cfg t) = cfg.high t := by
  obtain ⟨-, -, hg⟩ := group_eq_pulse h t
  rw [hg, highRun_pulse]

/-- The length of the high run tells the two protocol bits apart (10_state.md R33, WF6). -/
theorem high_beq_high_true {cfg : Config} (h : cfg.wf = true) (t : Bool) : (cfg.high t == cfg.high true) = t := by
  cases t with
  | true => exact beq_self_eq_true _
  | false => exact beq_false_of_ne (high_false_lt_high_true h).ne

/-- Groups are read back as the protocol bits they stand for, whatever follows them. -/
theorem recoverBits_groups {cfg : Config} (h : cfg.wf = true) (ts ws : List Bool) :
    recoverBits cfg ts.length (ts.flatMap (group cfg) ++ ws) = ts := by
  induction ts with
  | nil => rfl
  | cons t ts ih =>
    rw [List.length_cons, List.flatMap_cons, List.append_assoc, recoverBits, List.take_left' (group_length cfg t),
      List.drop_left' (group_length cfg t), highRun_group h, high_beq_high_true h, ih]

/-- Settles O45: the waveform is the groups of the frame's protocol bits, `24*N` of them, then the padding. -/
theorem waveformGivesBackTheFrame : Obligations.WaveformGivesBackTheFrame := by
  intro cfg px h hN
  rw [wave_encodeFn, serial_eq_groups, ← hN, ← protocolBits_length cfg px, recoverBits_groups h]

/-! ### The level of the line -/

/-- A legal group is 1 before the end of its high run and 0 from there on. -/
theorem group_getElem?_of_wf {cfg : Config} (h : cfg.wf = true) (t : Bool) {j : Nat} (hj : j < cfg.B) :
    (group cfg t)[j]? = some (decide (j < cfg.high t)) := by
  obtain ⟨-, -, hg⟩ := group_eq_pulse h t
  rw [hg, List.getElem?_append, List.length_replicate]
  split
  · rename_i hlt
    rw [List.getElem?_replicate_of_lt hlt, decide_eq_true hlt]
  · rename_i hge
    rw [List.getElem?_replicate_of_lt (by omega), decide_eq_false hge]

/-- While bus bit `j` of the group of protocol bit `k` is on the wire, the line has the level of that bit. -/
theorem levelAt_of_group {cfg : Config} (h : cfg.wf = true) {px : Frame} {k j : Nat} {b : Bool}
    (hk : ((px.flatMap (wireBytes cfg)).flatMap bits)[k]? = some b) (hj : j < cfg.B) {t : ℚ}
    (h0 : cfg.busTime (k * cfg.B + j) ≤ t) (h1 : t < cfg.busTime (k * cfg.B + j + 1)) :
    levelAt cfg (wave (encodeFn cfg px)) t = Level.ofBit (decide (j < cfg.high b)) := by
  rw [levelAt_of_slot (busRate_pos h) h0 h1, wave_encodeFn_getElem?_group hk hj, group_getElem?_of_wf h b hj]
  rfl

/-- Every instant from bus bit `a` to bus bit `c` lies in the slot of a bus bit between them, counted from `a`. -/
theorem exists_slot_between {cfg : Config} (h : cfg.wf = true) {t : ℚ} {k a c : Nat} (h0 : cfg.busTime (k + a) ≤ t)
    (h1 : t < cfg.busTime (k + c)) :
    ∃ j, a ≤ j ∧ j < c ∧ cfg.busTime (k + j) ≤ t ∧ t < cfg.busTime (k + j + 1) := by
  obtain ⟨n, han, hn0, hn1⟩ := exists_slot (busRate_pos h) h0
  obtain ⟨j, rfl⟩ := Nat.exists_eq_add_of_le (show k ≤ n by omega)
  have hjc : k + j < k + c := lt_of_busTime (busRate_pos h) hn0 h1
  exact ⟨j, by omega, by omega, hn0, hn1⟩

/-- Settles O46: the instant lies in the slot of a bus bit of the group, in its high run or after it. -/
theorem protocolBitPulseWidths : Obligations.ProtocolBitPulseWidths := by
  intro cfg px k b h hN hk t
  obtain ⟨-, hlt, -⟩ := group_eq_pulse h b
  constructor
  · intro h0 h1
    obtain ⟨j, -, hj, hj0, hj1⟩ := exists_slot_between h (a := 0) h0 h1
    rw [levelAt_of_group h hk (hj.trans hlt) hj0 hj1, decide_eq_true hj]
    rfl
  · intro h0 h1
    rw [Nat.succ_mul] at h1
    obtain ⟨j, hHj, hj, hj0, hj1⟩ := exists_slot_between h h0 h1
    rw [levelAt_of_group h hk hj hj0 hj1, decide_eq_false (Nat.not_lt.2 hHj)]
    rfl

/-! ### The latch time -/

/-- After the last group the waveform holds no 1. -/
theorem wave_encodeFn_getElem?_padding {cfg : Config} {px : Frame} {n : Nat}
    (hn : 8 * (3 * cfg.B * px.length) ≤ n) : (wave (encodeFn cfg px))[n]? ≠ some true := by
  rw [wave_encodeFn, List.getElem?_append_right (by rwa [serial_length]), List.getElem?_replicate]
  split <;> simp

/-- TWF3 over the integers: 50000 ns of padding at `F_BUS` (10_state.md R34). -/
theorem twf3_iff {cfg : Config} (h : cfg.wf = true) : cfg.twf3 ↔ cfg.fBus.toNat ≤ 160000 * cfg.R := by
  have hf : 0 < cfg.busRate := busRate_pos h
  have hns : (Config.tResetMinNs : ℚ) = 50000 := by norm_num [Config.tResetMinNs]
  rw [Config.twf3, ge_iff_le, le_div_iff₀ hf, hns, ← Nat.cast_le (α := ℚ), Config.busRate]
  push_cast
  constructor <;> intro hle <;> linarith

/-- Settles O48. -/
theorem latchCheckOverIntegers : Obligations.LatchCheckOverIntegers := fun _ h => twf3_iff h

/-- The padding of `R` bytes lasts `8*R/F_BUS`. -/
theorem busTime_padding (cfg : Config) :
    cfg.busTime (8 * cfg.LB) - cfg.busTime (24 * cfg.B * cfg.N) = 8 * cfg.R / cfg.busRate := by
  rw [Config.busTime, Config.busTime, ← sub_div, Config.LB]
  push_cast
  ring

/-- Settles O47: an instant after the last group lies in a slot of the padding or past it, and TWF3 bounds `F_BUS`. -/
theorem latchLowAfterLastGroup : Obligations.LatchLowAfterLastGroup := by
  intro cfg px h hN
  have hf : 0 < cfg.busRate := busRate_pos h
  constructor
  · intro t ht
    obtain ⟨n, hn, hn0, hn1⟩ := exists_slot hf ht
    have hpad : (wave (encodeFn cfg px))[n]? ≠ some true :=
      wave_encodeFn_getElem?_padding (le_of_eq_of_le (by rw [hN]; ring) hn)
    rw [levelAt_of_slot hf hn0 hn1]
    match (wave (encodeFn cfg px))[n]?, hpad with
    | none, _ | some false, _ => rfl
  · intro hlatch
    have hR : cfg.busRate ≤ 160000 * cfg.R := by
      rw [Config.busRate]
      exact_mod_cast (twf3_iff h).1 hlatch
    rw [busTime_padding, ge_iff_le, div_le_div_iff₀ (by norm_num) hf]
    linarith

/-! ### Durations -/

theorem LB_pos {cfg : Config} (h : cfg.wf = true) : 0 < cfg.LB := by
  obtain ⟨_, _, _, _, _, _, h7, _⟩ := (wf_iff cfg).1 h
  rw [Config.wf7, decide_eq_true_eq] at h7
  rw [Config.LB]
  omega

/-- Settles O49: the buffer has `LB` bytes of eight bus bits, and neither `LB` nor `F_BUS` is 0. -/
theorem transferTimeAndFrameRate : Obligations.TransferTimeAndFrameRate := by
  intro cfg px h hN
  have hf : cfg.busRate ≠ 0 := (busRate_pos h).ne'
  have hLB : (cfg.LB : ℚ) ≠ 0 := Nat.cast_ne_zero.2 (LB_pos h).ne'
  constructor
  · rw [wave_length, encodeFn_length_eq_LB hN, Config.busTime, Config.transferTime]
    push_cast
    rfl
  · rw [Config.transferTime, Config.frameRateBound]
    field_simp

end Sys2Proof.Machine
